-- ==== Sys2Proof/Word.lean ====
section
/-! DEFINITION. The widths of the machine (00_scope.md R5): the 64-bit word of the registers, the program
counter and the instruction memory, and the 3-bit digit of a legal word and of an output entry. -/

namespace Sys2Proof

/-- A u64: A, B, C, pc, STEPS and one word of IMEM (00_scope.md R5: XLEN = WORDLEN = PCLEN = 64). -/
abbrev Word := BitVec 64

/-- A 3-bit value: the legal part of an instruction word (30_encoding.md R61) and one entry of OUT
(10_state.md R28). -/
abbrev Digit := BitVec 3

end Sys2Proof
end

