-- ==== Sys2Proof/Config.lean ====
section
/-! DEFINITION. The implementation parameters (00_scope.md R5) and the one free value of the model. -/

namespace Sys2Proof

/-- The parameters of 00_scope.md R5. They are fixed for a machine and no step or host move changes them
(70_reset_and_hazards.md R198). They are plain data carried in the state (log entry 2), so a statement about
every state is about every admitted choice of them. -/
structure Config where
  /-- IMEM_CAP: the longest program a Launch accepts, in words; at most 2^63. -/
  imemCap : Nat
  /-- OUT_CAP: the capacity of the output buffer; `none` is unbounded. -/
  outCap : Option Nat
  /-- STEP_CAP: the cap on executed instructions; `none` is no cap. A cap of 2^64 or more never fires (DESIGN CHOICE,
  log entry 16). -/
  stepCap : Option Nat
  deriving DecidableEq, Repr

/-- The defaults of 00_scope.md R5 for OUT_CAP (unbounded) and STEP_CAP (none). IMEM_CAP is the largest value
the spec admits (DESIGN CHOICE, log entry 2). -/
def Config.default : Config :=
  { imemCap := 2 ^ 63, outCap := none, stepCap := none }

/-- What a host reads from the 64-bit OUT_LEN of 10_state.md R32 when OUT holds this many entries and the
number does not fit in 64 bits: the spec states no value, so it is a free value (DESIGN CHOICE, log entry 8;
safe: nothing can be proved of it). -/
opaque Config.outLenBeyond : Nat → BitVec 64

end Sys2Proof
end

