-- ==== Sys2Proof/Syntax.lean ====
section
/-! DEFINITION. The instructions as syntax: one constructor per row of spec/opcode_table.json, in the order of the
opcodes, and the operand forms of 30_encoding.md R63 to R65. -/

namespace Sys2Proof

/-- The general registers (10_state.md R21). -/
inductive Reg where
  | a
  | b
  | c
  deriving DecidableEq, Repr

/-- A combo operand (30_encoding.md R64): 0 to 3 stand for themselves, 4, 5 and 6 for the live value of A, B
and C, and 7 is reserved. -/
inductive Combo where
  | lit (v : BitVec 2)
  | reg (r : Reg)
  | reserved
  deriving DecidableEq, Repr

/-- The eight instructions (30_encoding.md R67) with the operand kind R63 gives each. -/
inductive Instr where
  /-- 0: A shifted right into A (41_shift.md R100). -/
  | adv (k : Combo)
  /-- 1: B xor a literal (42_bitwise.md R120). -/
  | bxl (k : Digit)
  /-- 2: a combo value mod 8 into B (42_bitwise.md R121). -/
  | bst (k : Combo)
  /-- 3: jump to a literal index if A is not zero (43_control.md R140). -/
  | jnz (k : Digit)
  /-- 4: B xor C, the operand ignored (42_bitwise.md R122). -/
  | bxc (k : Digit)
  /-- 5: append a combo value mod 8 to OUT (44_output.md R150). -/
  | out (k : Combo)
  /-- 6: A shifted right into B (41_shift.md R101). -/
  | bdv (k : Combo)
  /-- 7: A shifted right into C (41_shift.md R102). -/
  | cdv (k : Combo)
  deriving DecidableEq, Repr

end Sys2Proof
end

