-- ==== Sys2Proof/WellFormed.lean ====
section
/-! DEFINITION. Which instructions the encoding admits (30_encoding.md R67, R68): every literal and ignored operand
is legal, and a combo operand must not be the reserved one. -/

namespace Sys2Proof

/-- A combo operand other than the reserved 7 (30_encoding.md R64). -/
def Combo.wellFormed (k : Combo) : Bool :=
  match k with
  | .lit _ => true
  | .reg _ => true
  | .reserved => false

/-- The legal operands of 30_encoding.md R67. -/
def Instr.wellFormed (i : Instr) : Bool :=
  match i with
  | .adv k => k.wellFormed
  | .bxl _ => true
  | .bst k => k.wellFormed
  | .jnz _ => true
  | .bxc _ => true
  | .out k => k.wellFormed
  | .bdv k => k.wellFormed
  | .cdv k => k.wellFormed

end Sys2Proof
end

