-- ==== Sys2Proof/Decode.lean ====
section
/-! DEFINITION. The decoder of 30_encoding.md R66, total on every pair of words and rejecting by reason, the encoder
from the same opcode map (R67), and the reading of an opcode-table word (R62). -/

namespace Sys2Proof

/-- The reasons of InvalidInstruction (60_exceptions.md R160, CAUSE 1 to 3), in the order decode tests them. -/
inductive InvalidReason where
  /-- The opcode word is above 7 (R161). -/
  | badOpcode
  /-- The opcode word is legal and the operand word is above 7 (R162). -/
  | badOperand
  /-- A combo opcode with operand word 7 (R163). -/
  | reservedCombo
  deriving DecidableEq, Repr

/-- The eight opcodes of 30_encoding.md R67. -/
inductive Opcode where
  | adv
  | bxl
  | bst
  | jnz
  | bxc
  | out
  | bdv
  | cdv
  deriving DecidableEq, Repr

/-- The opcode a whole opcode word stands for (30_encoding.md R66, R67); a word above 7 stands for none, and is
not reduced to its low bits (60_exceptions.md R161). -/
def opcodeOf (op : Word) : Option Opcode :=
  match op.toNat with
  | 0 => some .adv
  | 1 => some .bxl
  | 2 => some .bst
  | 3 => some .jnz
  | 4 => some .bxc
  | 5 => some .out
  | 6 => some .bdv
  | 7 => some .cdv
  | _ => none

/-- The operand field of a whole operand word (30_encoding.md R61, R66); a word above 7 has none. -/
def operandOf (arg : Word) : Option Digit :=
  if arg.toNat ≤ 7 then some (BitVec.ofNat 3 arg.toNat) else none

/-- The combo form of an operand field (30_encoding.md R64). -/
def comboOf (k : Digit) : Combo :=
  match k.toNat with
  | 4 => .reg .a
  | 5 => .reg .b
  | 6 => .reg .c
  | 7 => .reserved
  | n => .lit (BitVec.ofNat 2 n)

/-- The instruction of an opcode and an operand field, the operand read as 30_encoding.md R63 says. -/
def instrOf (o : Opcode) (k : Digit) : Instr :=
  match o with
  | .adv => .adv (comboOf k)
  | .bxl => .bxl k
  | .bst => .bst (comboOf k)
  | .jnz => .jnz k
  | .bxc => .bxc k
  | .out => .out (comboOf k)
  | .bdv => .bdv (comboOf k)
  | .cdv => .cdv (comboOf k)

/-- The decode of the pair at pc (30_encoding.md R66): BadOpcode, then BadOperand, then ReservedCombo, else the
instruction. -/
def decode (op arg : Word) : Except InvalidReason Instr :=
  match opcodeOf op with
  | none => .error .badOpcode
  | some o =>
    match operandOf arg with
    | none => .error .badOperand
    | some k => if (instrOf o k).wellFormed then .ok (instrOf o k) else .error .reservedCombo

/-- The operand field of a combo operand (30_encoding.md R64). -/
def Combo.field (k : Combo) : Digit :=
  match k with
  | .lit v => v.setWidth 3
  | .reg .a => 4#3
  | .reg .b => 5#3
  | .reg .c => 6#3
  | .reserved => 7#3

/-- A legal word holding this 3-bit field: bits [63:3] are 0 (30_encoding.md R61). -/
def wordOf (k : Digit) : Word := k.setWidth 64

/-- The pair of words of an instruction: its opcode word (30_encoding.md R67) and its operand word. -/
def encode (i : Instr) : Word × Word :=
  match i with
  | .adv k => (0#64, wordOf k.field)
  | .bxl k => (1#64, wordOf k)
  | .bst k => (2#64, wordOf k.field)
  | .jnz k => (3#64, wordOf k)
  | .bxc k => (4#64, wordOf k)
  | .out k => (5#64, wordOf k.field)
  | .bdv k => (6#64, wordOf k.field)
  | .cdv k => (7#64, wordOf k.field)

/-- The two words that an opcode-table number stands for. The table writes a pair as
insn6 = (opcode in bits [5:3], operand in bits [2:0]) (30_encoding.md R62), so the low three bits are the operand
word and every bit above them is the opcode word: a number above 63 is an opcode word above 7 (log entry 11). -/
def tablePair (nbits w : Nat) : Word × Word :=
  (BitVec.ofNat 64 (w % 2 ^ nbits / 8), BitVec.ofNat 64 (w % 2 ^ nbits % 8))

/-- What the decoder reads from an instruction numbered as spec/opcode_table.json numbers it. -/
def decodeTableWord (nbits w : Nat) : Option Instr :=
  match decode (tablePair nbits w).1 (tablePair nbits w).2 with
  | .ok i => some i
  | .error _ => none

end Sys2Proof
end

