-- ==== Sys2Proof/Machine/State.lean ====
section
/-! DEFINITION. The state of CORE as plain data (10_state.md R20), the codes its STATUS register holds, the outcomes
that are no next state, and the state after reset (R34). -/

namespace Sys2Proof.Machine

/-- The STATE field of STATUS (10_state.md R30). -/
inductive RunState where
  /-- 0: no run since reset. -/
  | idle
  /-- 1: a run is in progress. -/
  | running
  /-- 2: the run ended normally. -/
  | halted
  /-- 3: the run ended in a fault. -/
  | faulted
  deriving DecidableEq, Repr

/-- The causes a faulted run records (60_exceptions.md R160). -/
inductive Cause where
  /-- CAUSE 1 to 3: InvalidInstruction, with its reason. -/
  | invalidInstruction (reason : InvalidReason)
  /-- CAUSE 4: an out on a full output buffer (R164). -/
  | outputOverflow
  /-- CAUSE 5: STEPS has reached STEP_CAP (R165). -/
  | stepLimit
  deriving DecidableEq, Repr

/-- The state of CORE (10_state.md R20). N is the length of `imem` and OUT_LEN the length of `out` (log entry 7). -/
structure State where
  /-- Register A (R21). -/
  a : Word
  /-- Register B (R21). -/
  b : Word
  /-- Register C (R21). -/
  c : Word
  /-- The program counter, a word index (R24). -/
  pc : Word
  /-- The instruction memory: the words of the stream, index 0 first (R29). -/
  imem : List Word
  /-- The output buffer: the entries in append order (R28). -/
  out : List Digit
  /-- The 8-bit STATUS register: STATE in [1:0], CAUSE in [4:2], [7:5] reserved (R30). -/
  status : BitVec 8
  /-- The count of executed instructions of the run (R31). -/
  steps : Word
  /-- The machine's parameters: the model's own field, never written by a step or a host move (log entry 2). -/
  config : Config
  deriving DecidableEq, Repr

/-- Why the model stops without a next state. A fault of the spec is not one of these: it is a next state with
STATE = FAULTED (60_exceptions.md R167, log entry 4). -/
inductive Fault where
  /-- MemRead of IMEM at an index not below N, which 00_scope.md R8 leaves undefined. Raised by `step` alone, if its
  fetch were outside IMEM; the halt test rules that out (20_memory.md R41), so no state reaches it. Safe. -/
  | fetchOutsideImem
  deriving DecidableEq, Repr

/-- The moves the spec refuses, and the model's own marker for an instruction without a meaning. -/
inductive Refusal where
  /-- Raised by an arm of `exec` that has no meaning yet; no arm raises it now. Safe. -/
  | notModelled (mnemonic : String)
  /-- Raised by `State.launch` while STATE = RUNNING (70_reset_and_hazards.md R192). Safe. -/
  | launchWhileRunning
  /-- Raised by `State.launch` on a program longer than IMEM_CAP (70_reset_and_hazards.md R192). Safe. -/
  | launchTooLong
  /-- Raised by `State.hostRead` of anything but STATUS while STATE = RUNNING (70_reset_and_hazards.md R193). Safe. -/
  | readWhileRunning
  /-- Raised by `State.hostRead` of A, B or C while STATE = IDLE: they hold no value (10_state.md R34). Safe. -/
  | readOfNoValue
  /-- Raised by `State.hostRead` of an entry of OUT at or past OUT_LEN (10_state.md R32). Safe. -/
  | readPastOutput
  /-- Raised by `State.hostReadAt` on an index that the host's register map does not hold (10_state.md R32). Safe. -/
  | noSuchHostRegister
  deriving DecidableEq, Repr

/-- The state after reset (10_state.md R34), with the default parameters. The zeros in A, B and C are a DESIGN CHOICE
(log entry 1): the spec gives them no value, and a host read of them is refused until a Launch. -/
def State.reset : State :=
  { a := 0#64, b := 0#64, c := 0#64, pc := 0#64, imem := [], out := [], status := 0#8, steps := 0#64,
    config := Config.default }

end Sys2Proof.Machine
end

