-- ==== Sys2Proof/Machine/Ops.lean ====
section
/-! DEFINITION. The named operations over the state: registers, program counter, instruction memory, output buffer,
STATUS and STEPS; the halt (40_execution_loop.md R81), the entry of a fault (60_exceptions.md R167), and the
accounting after an instruction (R88). There is no return from a fault: no instruction leaves FAULTED (R168). -/

namespace Sys2Proof.Machine

/-! ### Registers -/

/-- The live value of a register (10_state.md R21). -/
def State.reg (s : State) (r : Reg) : Word :=
  match r with
  | .a => s.a
  | .b => s.b
  | .c => s.c

/-- A register write (10_state.md R21): no register is hardwired. -/
def State.writeReg (s : State) (r : Reg) (v : Word) : State :=
  match r with
  | .a => { s with a := v }
  | .b => { s with b := v }
  | .c => { s with c := v }

/-! ### Program counter -/

/-- The program-counter write of 00_scope.md R8. -/
def State.jump (s : State) (target : Word) : State := { s with pc := target }

/-- The default advance (40_execution_loop.md R87). The sum is exact in every state a run reaches (10_state.md R26);
elsewhere it is taken mod 2^64 (log entry 9). -/
def State.advance (s : State) : State := s.jump (s.pc + 2#64)

/-! ### Instruction memory -/

/-- N, the number of words in IMEM (10_state.md R29). -/
def State.n (s : State) : Nat := s.imem.length

/-- MemRead of IMEM (00_scope.md R8): defined below N only. -/
def State.imemRead (s : State) (i : Nat) : Option Word := s.imem[i]?

/-- The fetch of the two words at pc and pc + 1 (20_memory.md R41). -/
def State.fetchPair (s : State) : Option (Word × Word) :=
  match s.imemRead s.pc.toNat, s.imemRead (s.pc.toNat + 1) with
  | some op, some arg => some (op, arg)
  | _, _ => none

/-! ### Output buffer -/

/-- OUT_LEN (10_state.md R28). -/
def State.outLen (s : State) : Nat := s.out.length

/-- The entry of OUT at an index below OUT_LEN (10_state.md R28). -/
def State.outEntry (s : State) (i : Nat) : Option Digit := s.out[i]?

/-- The append of 20_memory.md R43: one entry at index OUT_LEN. -/
def State.appendOut (s : State) (v : Digit) : State := { s with out := s.out ++ [v] }

/-- OUT_LEN = OUT_CAP, never so when OUT_CAP is unbounded (44_output.md R151). -/
def State.outFull (s : State) : Bool :=
  match s.config.outCap with
  | none => false
  | some cap => s.outLen == cap

/-! ### STATUS -/

/-- The code of a STATE value in bits [1:0] (10_state.md R30). -/
def RunState.code (r : RunState) : BitVec 2 :=
  match r with
  | .idle => 0#2
  | .running => 1#2
  | .halted => 2#2
  | .faulted => 3#2

/-- The STATE value of a code (10_state.md R30); all four codes are used. -/
def RunState.ofCode (v : BitVec 2) : RunState :=
  match v.toNat with
  | 0 => .idle
  | 1 => .running
  | 2 => .halted
  | _ => .faulted

/-- The CAUSE value that a fault records (60_exceptions.md R160). -/
def Cause.code (c : Cause) : BitVec 3 :=
  match c with
  | .invalidInstruction .badOpcode => 1#3
  | .invalidInstruction .badOperand => 2#3
  | .invalidInstruction .reservedCombo => 3#3
  | .outputOverflow => 4#3
  | .stepLimit => 5#3

/-- A whole STATUS value from its fields; bits [7:5] are hardwired to 0 (10_state.md R30). -/
def statusOf (r : RunState) (cause : BitVec 3) : BitVec 8 := 0#3 ++ cause ++ r.code

/-- The STATE field (10_state.md R30). -/
def State.runState (s : State) : RunState := RunState.ofCode (s.status.extractLsb' 0 2)

/-- The CAUSE field (10_state.md R30); 0 is no cause. -/
def State.causeField (s : State) : BitVec 3 := s.status.extractLsb' 2 3

/-- STATUS as the host reads it: bits [7:5] always read 0 (10_state.md R30). -/
def State.statusRead (s : State) : BitVec 8 := statusOf s.runState s.causeField

/-- STATE = RUNNING. -/
def State.running (s : State) : Bool := s.runState == .running

/-- The write of STATE and CAUSE; every rule that writes one writes both (R81, R167, R191). -/
def State.setStatus (s : State) (r : RunState) (cause : BitVec 3) : State :=
  { s with status := statusOf r cause }

/-- The halt: STATE becomes HALTED and CAUSE 0, and nothing else changes (40_execution_loop.md R81). -/
def State.halt (s : State) : State := s.setStatus .halted 0#3

/-- Fault entry, the one operation that takes an exception (60_exceptions.md R167): STATE becomes FAULTED, CAUSE
records the cause, and nothing else changes. The spec gives no saved pc, no vector and no handler. -/
def State.raise (s : State) (c : Cause) : State := s.setStatus .faulted c.code

/-! ### STEPS -/

/-- STEPS = STEP_CAP, never so when no cap is set (40_execution_loop.md R82). DESIGN CHOICE (log entry 16, unsafe): a
STEP_CAP of 2^64 or more, which 00_scope.md R5 admits, is compared as it stands, so the saturating STEPS (R88) never
equals it and such a cap never fires, although R89 and R91 say that a run with a cap set ends in StepLimit. -/
def State.stepLimitReached (s : State) : Bool :=
  match s.config.stepCap with
  | none => false
  | some cap => s.steps.toNat == cap

/-- STEPS <- min(STEPS + 1, 2^64 - 1) (40_execution_loop.md R80, R88). -/
def State.countStep (s : State) : State :=
  { s with steps := BitVec.ofNat 64 (min (s.steps.toNat + 1) (2 ^ 64 - 1)) }

/-- What a step adds after its instruction (40_execution_loop.md R88): an instruction that ran is counted, one that
ended in a fault is not. -/
def retire (o : Host.Outcome State Fault Refusal) : Host.Outcome State Fault Refusal :=
  match o with
  | .next t => .next (if t.running then t.countStep else t)
  | .fault f => .fault f
  | .refused r => .refused r

/-! ### Bounds of the two memories -/

/-- A count is within an optional cap. -/
def withinCap (cap : Option Nat) (count : Nat) : Bool :=
  match cap with
  | none => true
  | some c => decide (count ≤ c)

/-- The form of the two memories (20_memory.md R40): N <= IMEM_CAP and OUT_LEN <= OUT_CAP. Each is a list of whole
units in index order with nothing unlisted, so equal memories are equal lists (log entry 7). -/
def Memory.wf (config : Config) (imem : List Word) (out : List Digit) : Bool :=
  decide (imem.length ≤ config.imemCap) && withinCap config.outCap out.length

end Sys2Proof.Machine
end

