-- ==== Sys2Proof/Machine/Operands.lean ====
section
/-! DEFINITION. The operand forms of 30_encoding.md R63 to R65 and the arithmetic of the instructions: the shift law
(41_shift.md R103), the zero extension and mod 8 (42_bitwise.md R123). -/

namespace Sys2Proof.Machine

/-- combo(k) on the live registers (30_encoding.md R64); the reserved operand has no value. -/
def State.comboValue (s : State) (k : Combo) : Option Word :=
  match k with
  | .lit v => some (v.setWidth 64)
  | .reg r => some (s.reg r)
  | .reserved => none

/-- A literal operand, zero-extended to 64 bits (30_encoding.md R65). -/
def literalValue (k : Digit) : Word := k.setWidth 64

/-- Run an instruction on its combo value. The reserved operand raises InvalidInstruction/ReservedCombo, as
30_encoding.md R64 says of combo(7); a step never gets there, because decode has raised it before (log entry 10). -/
def State.withCombo (s : State) (k : Combo) (run : Word → Host.Outcome State Fault Refusal) :
    Host.Outcome State Fault Refusal :=
  match s.comboValue k with
  | some v => run v
  | none => .next (s.raise (.invalidInstruction .reservedCombo))

/-- The shift law (41_shift.md R103): the full amount counts, and 64 or more gives 0. -/
def shr (x k : Word) : Word := if 64 ≤ k.toNat then 0#64 else x >>> k.toNat

/-- x mod 8, that is x[2:0] (42_bitwise.md R123). -/
def mod8 (x : Word) : Digit := x.setWidth 3

/-- A 3-bit value as a 64-bit value with zero high bits (00_scope.md R7). -/
def zext64 (v : Digit) : Word := v.setWidth 64

end Sys2Proof.Machine
end

