-- ==== Sys2Proof/Machine/Bitwise.lean ====
section
/-! DEFINITION. The bitwise family (42_bitwise.md): bxl, bst, bxc. -/

namespace Sys2Proof.Machine

/-- bxl: B xor the literal (42_bitwise.md R120). -/
def execBxl (k : Digit) (s : State) : Host.Outcome State Fault Refusal :=
  .next (s.writeReg .b (s.reg .b ^^^ literalValue k)).advance

/-- bst: the combo value mod 8, zero-extended, into B (42_bitwise.md R121). -/
def execBst (k : Combo) (s : State) : Host.Outcome State Fault Refusal :=
  s.withCombo k fun v => .next (s.writeReg .b (zext64 (mod8 v))).advance

/-- bxc: B xor C; the operand is not read (42_bitwise.md R122). -/
def execBxc (_k : Digit) (s : State) : Host.Outcome State Fault Refusal :=
  .next (s.writeReg .b (s.reg .b ^^^ s.reg .c)).advance

end Sys2Proof.Machine
end

