-- ==== Sys2Proof/Machine/Flags.lean ====
section
/-! DEFINITION. CORE has no flags, condition codes or predicates (10_state.md R27), so there is no flag computation.
Its one condition is the zero test of jnz, on the whole of register A (43_control.md R140). -/

namespace Sys2Proof.Machine

/-- A != 0, the test of jnz (43_control.md R140). -/
def State.aNonZero (s : State) : Bool := s.reg .a != 0#64

end Sys2Proof.Machine
end

