-- ==== Sys2Proof/Machine/Control.lean ====
section
/-! DEFINITION. Control transfer (43_control.md): jnz. -/

namespace Sys2Proof.Machine

/-- jnz: to the literal index if A is not zero, else the default advance (43_control.md R140). -/
def execJnz (k : Digit) (s : State) : Host.Outcome State Fault Refusal :=
  .next (if s.aNonZero then s.jump (literalValue k) else s.advance)

end Sys2Proof.Machine
end

