-- ==== Sys2Proof/Machine/Output.lean ====
section
/-! DEFINITION. Output (44_output.md): out. -/

namespace Sys2Proof.Machine

/-- out: OutputOverflow if the buffer is full, else append the combo value mod 8 and advance (44_output.md R150,
R151). -/
def execOut (k : Combo) (s : State) : Host.Outcome State Fault Refusal :=
  s.withCombo k fun v => .next (if s.outFull then s.raise .outputOverflow else (s.appendOut (mod8 v)).advance)

end Sys2Proof.Machine
end

