-- ==== Sys2Proof/Machine/Shift.lean ====
section
/-! DEFINITION. The shift family (41_shift.md): adv, bdv, cdv. -/

namespace Sys2Proof.Machine

/-- A shifted right by the combo value into a register, then the default advance (41_shift.md R100 to R102). -/
def State.shiftInto (s : State) (d : Reg) (k : Combo) : Host.Outcome State Fault Refusal :=
  s.withCombo k fun v => .next (s.writeReg d (shr (s.reg .a) v)).advance

/-- adv (41_shift.md R100). -/
def execAdv (k : Combo) (s : State) : Host.Outcome State Fault Refusal := s.shiftInto .a k

/-- bdv (41_shift.md R101). -/
def execBdv (k : Combo) (s : State) : Host.Outcome State Fault Refusal := s.shiftInto .b k

/-- cdv (41_shift.md R102). -/
def execCdv (k : Combo) (s : State) : Host.Outcome State Fault Refusal := s.shiftInto .c k

end Sys2Proof.Machine
end

