-- ==== Sys2Proof/Machine/Dispatch.lean ====
section
/-! DEFINITION. The dispatch of 40_execution_loop.md R86: one arm per instruction. -/

namespace Sys2Proof.Machine

def exec (i : Instr) (s : State) : Host.Outcome State Fault Refusal :=
  match i with
  | .adv k => Sys2Proof.Machine.execAdv k s
  | .bxl k => Sys2Proof.Machine.execBxl k s
  | .bst k => Sys2Proof.Machine.execBst k s
  | .jnz k => Sys2Proof.Machine.execJnz k s
  | .bxc k => Sys2Proof.Machine.execBxc k s
  | .out k => Sys2Proof.Machine.execOut k s
  | .bdv k => Sys2Proof.Machine.execBdv k s
  | .cdv k => Sys2Proof.Machine.execCdv k s

end Sys2Proof.Machine
end

