-- ==== Sys2Proof/Machine/Fetch.lean ====
section
/-! DEFINITION. What a step does before an instruction runs (40_execution_loop.md R80 to R84): the halt test, the
step-cap test, the fetch and the decode, in the order of 60_exceptions.md R166. -/

namespace Sys2Proof.Machine

/-- What the front of a step decides. -/
inductive Issue where
  /-- The step ends here with this state: a halt, a fault, or no step to take. -/
  | stop (t : State)
  /-- The instruction the pair at pc decodes to runs now. -/
  | run (i : Instr)
  /-- The fetch fell outside IMEM; the halt test rules it out. -/
  | outside
  deriving DecidableEq, Repr

/-- The halt test, on exact integers: pc + 1 >= N (40_execution_loop.md R81). -/
def State.haltTest (s : State) : Bool := decide (s.n ≤ s.pc.toNat + 1)

/-- The fetch and decode of a step that passed both tests (40_execution_loop.md R83, R84). -/
def State.decodeAtPc (s : State) : Issue :=
  match s.fetchPair with
  | none => .outside
  | some (op, arg) =>
    match decode op arg with
    | .ok i => .run i
    | .error r => .stop (s.raise (.invalidInstruction r))

/-- The front of a step (40_execution_loop.md R80). CORE has no step unless STATE = RUNNING: the state stays as it is
(log entry 3). -/
def State.issue (s : State) : Issue :=
  if s.running then
    if s.haltTest then .stop s.halt
    else if s.stepLimitReached then .stop (s.raise .stepLimit)
    else s.decodeAtPc
  else .stop s

/-- The instruction memory with a pair at an index, filled with zero words up to it where it is shorter: the layout
behind `State.withFetchWord` (log entry 6). -/
def placePair (imem : List Word) (index : Nat) (op arg : Word) : List Word :=
  (imem ++ List.replicate (index - imem.length) 0#64).take index ++ op :: arg :: imem.drop (index + 2)

/-- The state in which the next step fetches and runs this pair: the pair at pc, STATE = RUNNING, and no step cap if
the cap would end the step before the fetch (log entry 6). -/
def State.withPair (s : State) (op arg : Word) : State :=
  { s with
    imem := placePair s.imem s.pc.toNat op arg
    status := statusOf .running 0#3
    config := if s.stepLimitReached then { s.config with stepCap := none } else s.config }

end Sys2Proof.Machine
end

