-- ==== Sys2Proof/Machine/Step.lean ====
section
/-! DEFINITION. One step of CORE (40_execution_loop.md R80). -/

namespace Sys2Proof.Machine

/-- One step (40_execution_loop.md R80): the tests, fetch and decode of `State.issue`, then the instruction, then the
count of R88. -/
def step (s : State) : Host.Outcome State Fault Refusal :=
  match s.issue with
  | .stop t => .next t
  | .run i => retire (exec i s)
  | .outside => .fault .fetchOutsideImem

/-- The state with an opcode-table word as the pair its next step fetches and runs (log entry 6). -/
def State.withFetchWord (s : State) (nbits w : Nat) : State :=
  s.withPair (tablePair nbits w).1 (tablePair nbits w).2

end Sys2Proof.Machine
end

