-- ==== Sys2Proof/Machine/HostPort.lean ====
section
/-! DEFINITION. What the host can do to CORE (70_reset_and_hazards.md R190 to R195): Launch, Reset, the reads of the
register map (10_state.md R32), and the result of a run. These are moves of the host, not steps (log entry 5). -/

namespace Sys2Proof.Machine

/-- Reset, at any time (70_reset_and_hazards.md R190): every piece of state to its value after reset; the parameters
are the machine's and stay (R198). -/
def State.assertReset (s : State) : State := { State.reset with config := s.config }

/-- The state a Launch writes, whole (70_reset_and_hazards.md R191). -/
def State.launched (s : State) (a b c : Word) (prog : List Word) : State :=
  { a := a, b := b, c := c, pc := 0#64, imem := prog, out := [], status := statusOf .running 0#3, steps := 0#64,
    config := s.config }

/-- Launch(a, b, c, prog): refused while RUNNING and when prog is longer than IMEM_CAP (70_reset_and_hazards.md R192),
else R191. The words of prog are not checked here. -/
def State.launch (s : State) (a b c : Word) (prog : List Word) : Host.Outcome State Fault Refusal :=
  if s.running then .refused .launchWhileRunning
  else if s.config.imemCap < prog.length then .refused .launchTooLong
  else .next (s.launched a b c prog)

/-- What the host can read (10_state.md R32). -/
inductive HostReg where
  | reg (r : Reg)
  | pc
  | status
  | outLen
  | steps
  | outEntry (i : Nat)
  deriving DecidableEq, Repr

/-- The register of an index of the host's map (10_state.md R32); an index above 6 names none. -/
def HostReg.ofIndex (i : Nat) : Option HostReg :=
  match i with
  | 0 => some (.reg .a)
  | 1 => some (.reg .b)
  | 2 => some (.reg .c)
  | 3 => some .pc
  | 4 => some .status
  | 5 => some .outLen
  | 6 => some .steps
  | _ => none

/-- OUT_LEN through its 64-bit register (10_state.md R32); a length that does not fit reads as a free value
(log entry 8). -/
def State.outLenRead (s : State) : Word :=
  if s.outLen < 2 ^ 64 then BitVec.ofNat 64 s.outLen else Config.outLenBeyond s.outLen

/-- A host read (70_reset_and_hazards.md R193), zero-extended to 64 bits: STATUS at any time, the rest when
STATE != RUNNING; A, B and C hold no value while STATE = IDLE (10_state.md R34). It changes no state. -/
def State.hostRead (s : State) (r : HostReg) : Except Refusal Word :=
  match r with
  | .status => .ok (s.statusRead.setWidth 64)
  | .reg g =>
    if s.running then .error .readWhileRunning
    else if s.runState = .idle then .error .readOfNoValue
    else .ok (s.reg g)
  | .pc => if s.running then .error .readWhileRunning else .ok s.pc
  | .outLen => if s.running then .error .readWhileRunning else .ok s.outLenRead
  | .steps => if s.running then .error .readWhileRunning else .ok s.steps
  | .outEntry i =>
    if s.running then .error .readWhileRunning
    else
      match s.outEntry i with
      | some v => .ok (zext64 v)
      | none => .error .readPastOutput

/-- A host read by its index in the register map (10_state.md R32). -/
def State.hostReadAt (s : State) (i : Nat) : Except Refusal Word :=
  match HostReg.ofIndex i with
  | some r => s.hostRead r
  | none => .error .noSuchHostRegister

/-- The result of a run as the host receives it (70_reset_and_hazards.md R195). -/
inductive RunResult where
  /-- The run halted: the output sequence, each entry as a u64, and the final A, B, C and pc. -/
  | ok (output : List Word) (a b c pc : Word)
  /-- The run faulted, with the CAUSE. -/
  | err (cause : BitVec 3)
  deriving DecidableEq, Repr

/-- The result of the run that reached this state: none unless it has stopped (70_reset_and_hazards.md R195). -/
def State.result (s : State) : Option RunResult :=
  match s.runState with
  | .halted => some (.ok (s.out.map zext64) s.a s.b s.c s.pc)
  | .faulted => some (.err s.causeField)
  | .idle => none
  | .running => none

end Sys2Proof.Machine
end

