-- ==== Sys2Proof/Safety.lean ====
section
/-! DEFINITION. The terms that claims about CORE use: runs, the invariant of every reached state, the frames, and
which registers an instruction reads and writes. -/

namespace Sys2Proof.Machine

/-- The state after this many steps. A state in which CORE has no step stays (log entry 3). -/
def runSteps (k : Nat) (s : State) : Host.Outcome State Fault Refusal :=
  Host.Core.run Sys2Proof.core k s

/-! ### The invariant -/

/-- STATUS holds a legal pair of STATE and CAUSE and its bits [7:5] are 0 (10_state.md R30). -/
def legalStatus (v : BitVec 8) : Bool :=
  match v.toNat with
  | 0 | 1 | 2 => true
  | 7 | 11 | 15 | 19 | 23 => true
  | _ => false

/-- pc <= max(N, 7) (10_state.md R26). -/
abbrev State.PcInRange (s : State) : Prop := s.pc.toNat ≤ max s.n 7

/-- STEPS never exceeds a set STEP_CAP (10_state.md R31). -/
abbrev State.StepsInRange (s : State) : Prop := withinCap s.config.stepCap s.steps.toNat = true

/-- Nothing is loaded before the first Launch after a reset (10_state.md R34). -/
abbrev State.IdleIsEmpty (s : State) : Prop :=
  s.runState = .idle → s.pc = 0#64 ∧ s.imem = [] ∧ s.out = [] ∧ s.steps = 0#64

/-- What holds in every state that Reset, Launches and steps reach: IMEM_CAP is an admitted parameter (00_scope.md
R5), the memories are within their capacities, STATUS is legal, and pc and STEPS are in range. -/
abbrev State.Inv (s : State) : Prop :=
  s.config.imemCap ≤ 2 ^ 63 ∧ Memory.wf s.config s.imem s.out = true ∧ legalStatus s.status = true ∧
    s.PcInRange ∧ s.StepsInRange ∧ s.IdleIsEmpty

/-- The states that CORE reaches, whatever its parameters: from power-on by Resets, Launches and steps, one at a time,
in any order (20_memory.md R49, 70_reset_and_hazards.md R190, R191, R198). -/
inductive Reached : State → Prop where
  | powerOn (config : Config) (h : config.imemCap ≤ 2 ^ 63) : Reached { State.reset with config := config }
  | reset (s : State) (h : Reached s) : Reached s.assertReset
  | launch (s t : State) (a b c : Word) (prog : List Word) (h : Reached s) (hl : s.launch a b c prog = .next t) :
      Reached t
  | step (s t : State) (h : Reached s) (ht : step s = .next t) : Reached t

/-! ### Frames -/

/-- Every index of IMEM reads as before (20_memory.md R42). -/
def State.SameImem (s t : State) : Prop := t.n = s.n ∧ ∀ i, t.imemRead i = s.imemRead i

/-- Every index of OUT reads as before. -/
def State.SameOut (s t : State) : Prop := t.outLen = s.outLen ∧ ∀ i, t.outEntry i = s.outEntry i

/-- OUT has one more entry, at index OUT_LEN, and every other index reads as before (20_memory.md R43). -/
def State.Appended (s t : State) (v : Digit) : Prop :=
  t.outLen = s.outLen + 1 ∧ t.outEntry s.outLen = some v ∧ ∀ i, i ≠ s.outLen → t.outEntry i = s.outEntry i

/-- A, B and C are as before. -/
def State.SameRegs (s t : State) : Prop := t.a = s.a ∧ t.b = s.b ∧ t.c = s.c

/-- STATUS, STEPS and the parameters are as before. -/
def State.SameControl (s t : State) : Prop := t.status = s.status ∧ t.steps = s.steps ∧ t.config = s.config

/-- The default advance, exact wherever pc + 2 is below 2^64 (40_execution_loop.md R87, 00_scope.md R7). Every state
of the invariant is such a state (10_state.md R26). -/
def State.Advanced (s t : State) : Prop := s.pc.toNat + 2 < 2 ^ 64 → t.pc.toNat = s.pc.toNat + 2

/-- The run ended in a fault with this CAUSE and nothing but STATUS changed (60_exceptions.md R167). -/
def State.FaultedOnly (s t : State) (cause : BitVec 3) : Prop :=
  t.runState = .faulted ∧ t.causeField = cause ∧ s.SameRegs t ∧ t.pc = s.pc ∧ s.SameImem t ∧ s.SameOut t ∧
    t.steps = s.steps ∧ t.config = s.config

/-- CORE is running, no step cap is reached, as the test of 40_execution_loop.md R82 has it (log entry 16), and this pair
of words is at pc. -/
def State.AtPair (s : State) (op arg : Word) : Prop :=
  s.runState = .running ∧ s.config.stepCap ≠ some s.steps.toNat ∧ s.imemRead s.pc.toNat = some op ∧
    s.imemRead (s.pc.toNat + 1) = some arg

/-- A pair with this opcode and operand word 7 is refused at decode, and its step ends the run in ReservedCombo and
changes nothing else (60_exceptions.md R163; the entry is that of R167, the spec's decision D8). -/
def ReservedOperandFaults (op : Word) : Prop :=
  decode op 7#64 = .error .reservedCombo ∧
    ∀ s : State, s.AtPair op 7#64 → ∃ t, step s = .next t ∧ s.FaultedOnly t 3#3

/-- The opcodes that take a combo operand (30_encoding.md R63). -/
def comboOpcode (op : Word) : Bool := op == 0#64 || op == 2#64 || op == 5#64 || op == 6#64 || op == 7#64

end Sys2Proof.Machine

namespace Sys2Proof

/-! ### Read and write sets (10_state.md R22) -/

/-- The combo operand names this register. -/
def Combo.names (k : Combo) (r : Reg) : Bool := k == .reg r

/-- The registers an instruction may read (10_state.md R22). -/
def Instr.reads (i : Instr) (r : Reg) : Bool :=
  match i with
  | .adv k => r == .a || Combo.names k r
  | .bxl _ => r == .b
  | .bst k => Combo.names k r
  | .jnz _ => r == .a
  | .bxc _ => r == .b || r == .c
  | .out k => Combo.names k r
  | .bdv k => r == .a || Combo.names k r
  | .cdv k => r == .a || Combo.names k r

/-- The registers an instruction may write (10_state.md R22). -/
def Instr.writes (i : Instr) (r : Reg) : Bool :=
  match i with
  | .adv _ => r == .a
  | .bxl _ => r == .b
  | .bst _ => r == .b
  | .jnz _ => false
  | .bxc _ => r == .b
  | .out _ => false
  | .bdv _ => r == .b
  | .cdv _ => r == .c

end Sys2Proof

namespace Sys2Proof.Machine

/-! ### Changed states that claims compare -/

/-- The state with another step cap. -/
def State.withStepCap (s : State) (cap : Option Nat) : State := { s with config := { s.config with stepCap := cap } }

/-- The state with one word of IMEM replaced. -/
def State.withImemWord (s : State) (i : Nat) (w : Word) : State := { s with imem := s.imem.set i w }

/-- The state with other entries in OUT. -/
def State.withOut (s : State) (out : List Digit) : State := { s with out := out }

end Sys2Proof.Machine
end

