-- ==== Sys2Proof/Certificates/Slice0/Obligations.lean ====
section
/-! DEFINITION. The statements for the provers, taken from the numbered rules of spec/. Each docstring names the rule
or the sentence of the spec it formalises. Where a rule is marked in the spec as a decision or a derivation of the
spec's own, or where the model chose, the docstring says so and OBLIGATIONS.json gives the basis as derived. -/

open Sys2Proof Sys2Proof.Machine

/-! ### Encoding -/

/-- Tier 1. The words of one instruction of each opcode, written out from the opcode map of 30_encoding.md R67:
adv 3, bxl 7, bst 6, jnz 1, bxc 7, out 4, bdv 5, cdv 6, and the opcode word 8, which is not read as adv (60_exceptions.md
R161). -/
def Obligations.SampleWordsDecode : Prop :=
  decode 0x0#64 0x3#64 = .ok (.adv (.lit 3#2)) ∧ decode 0x1#64 0x7#64 = .ok (.bxl 7#3) ∧
    decode 0x2#64 0x6#64 = .ok (.bst (.reg .c)) ∧ decode 0x3#64 0x1#64 = .ok (.jnz 1#3) ∧
    decode 0x4#64 0x7#64 = .ok (.bxc 7#3) ∧ decode 0x5#64 0x4#64 = .ok (.out (.reg .a)) ∧
    decode 0x6#64 0x5#64 = .ok (.bdv (.reg .b)) ∧ decode 0x7#64 0x6#64 = .ok (.cdv (.reg .c)) ∧
    decode 0x8#64 0x0#64 = .error .badOpcode

/-- Tier 3. Every well-formed instruction, with every operand the encoding admits, decodes from its own words
(30_encoding.md R66, R67). -/
def Obligations.DecodeOfEncode : Prop :=
  ∀ i : Instr, i.wellFormed = true → decode (encode i).1 (encode i).2 = .ok i

/-- Tier 3. No other pair decodes to it: a pair of u64 words decodes to an instruction exactly when it is that
instruction's own pair, so no two instructions share words and no bit of a word is dropped (30_encoding.md R66:
"The decoder is total: every pair of u64 words gives either exactly one instruction or exactly one reason"). -/
def Obligations.DecodeAcceptsOnlyOwnWords : Prop :=
  ∀ (op arg : Word) (i : Instr), decode op arg = .ok i ↔ i.wellFormed = true ∧ encode i = (op, arg)

/-- Tier 2. The three tests of 30_encoding.md R66 in their order, and that one of the four outcomes always holds. The
second test and the order are the spec's own decisions D5 and D7. -/
def Obligations.DecodeTestsInOrder : Prop :=
  ∀ op arg : Word,
    (7 < op.toNat → decode op arg = .error .badOpcode) ∧
    (op.toNat ≤ 7 → 7 < arg.toNat → decode op arg = .error .badOperand) ∧
    (comboOpcode op = true → arg.toNat = 7 → decode op arg = .error .reservedCombo) ∧
    (op.toNat ≤ 7 → arg.toNat ≤ 7 → ¬ (comboOpcode op = true ∧ arg.toNat = 7) → ∃ i, decode op arg = .ok i)

/-! ### Operands and arithmetic -/

/-- Tier 2. The combo operand function (30_encoding.md R64): 0 to 3 are themselves, 4, 5 and 6 the live A, B and C, and
7 has no value: a pair that would evaluate it ends the run in ReservedCombo before the instruction runs. -/
def Obligations.ComboOperandValues : Prop :=
  (∀ s : State,
    s.comboValue (comboOf 0#3) = some 0#64 ∧ s.comboValue (comboOf 1#3) = some 1#64 ∧
    s.comboValue (comboOf 2#3) = some 2#64 ∧ s.comboValue (comboOf 3#3) = some 3#64 ∧
    s.comboValue (comboOf 4#3) = some s.a ∧ s.comboValue (comboOf 5#3) = some s.b ∧
    s.comboValue (comboOf 6#3) = some s.c ∧ s.comboValue (comboOf 7#3) = none) ∧
  ∀ op : Word, comboOpcode op = true → ReservedOperandFaults op

/-- Tier 2. The five ill-formed instructions, which decode never gives: run all the same, each raises ReservedCombo and
changes nothing else. This is the model's reading of 30_encoding.md R64 (log entry 10, DEDUCED). -/
def Obligations.ReservedFormsRaise : Prop :=
  ∀ (s : State) (i : Instr), i.wellFormed = false → ∃ t, exec i s = .next t ∧ s.FaultedOnly t 3#3

/-- Tier 2. The shift law (41_shift.md R103): floor(x / 2^k) at every amount, the plain shift for k <= 63, 0 for
k >= 64, no amount reduced mod 64. -/
def Obligations.ShiftLaw : Prop :=
  ∀ x k : Word,
    (shr x k).toNat = x.toNat / 2 ^ k.toNat ∧ (k.toNat ≤ 63 → shr x k = x >>> k.toNat) ∧
      (64 ≤ k.toNat → shr x k = 0#64)

/-- Tier 2. A shift of A by A gives 0 in adv, bdv and cdv, and a shift by 0 copies A (41_shift.md R104, which the spec
derives from its rule R103). -/
def Obligations.ShiftByItselfAndByZero : Prop :=
  ∀ s : State,
    (∃ t, exec (.adv (.reg .a)) s = .next t ∧ t.a = 0#64) ∧ (∃ t, exec (.bdv (.reg .a)) s = .next t ∧ t.b = 0#64) ∧
    (∃ t, exec (.cdv (.reg .a)) s = .next t ∧ t.c = 0#64) ∧ (∃ t, exec (.adv (.lit 0#2)) s = .next t ∧ t.a = s.a) ∧
    (∃ t, exec (.bdv (.lit 0#2)) s = .next t ∧ t.b = s.a) ∧ (∃ t, exec (.cdv (.lit 0#2)) s = .next t ∧ t.c = s.a)

/-! ### The eight instructions: encoding, completion, result and frame -/

/-- Tier 2. adv (41_shift.md R100): its words; on every combo value it completes with A shifted right into A and the
default advance, all else unchanged; with operand word 7 it faults and A is unchanged. -/
def Obligations.AdvShiftsAIntoA : Prop :=
  (∀ k : Digit, k ≠ 7#3 → decode 0#64 (zext64 k) = .ok (.adv (comboOf k))) ∧ ReservedOperandFaults 0#64 ∧
  ∀ (s : State) (k : Combo) (v : Word), s.comboValue k = some v →
    ∃ t, exec (.adv k) s = .next t ∧ t.a.toNat = s.a.toNat / 2 ^ v.toNat ∧ t.b = s.b ∧ t.c = s.c ∧ s.Advanced t ∧
      s.SameImem t ∧ s.SameOut t ∧ s.SameControl t

/-- Tier 2. bdv (41_shift.md R101): as adv, into B; combo 5 reads the old B. -/
def Obligations.BdvShiftsAIntoB : Prop :=
  (∀ k : Digit, k ≠ 7#3 → decode 6#64 (zext64 k) = .ok (.bdv (comboOf k))) ∧ ReservedOperandFaults 6#64 ∧
  ∀ (s : State) (k : Combo) (v : Word), s.comboValue k = some v →
    ∃ t, exec (.bdv k) s = .next t ∧ t.b.toNat = s.a.toNat / 2 ^ v.toNat ∧ t.a = s.a ∧ t.c = s.c ∧ s.Advanced t ∧
      s.SameImem t ∧ s.SameOut t ∧ s.SameControl t

/-- Tier 2. cdv (41_shift.md R102): as adv, into C; combo 6 reads the old C. -/
def Obligations.CdvShiftsAIntoC : Prop :=
  (∀ k : Digit, k ≠ 7#3 → decode 7#64 (zext64 k) = .ok (.cdv (comboOf k))) ∧ ReservedOperandFaults 7#64 ∧
  ∀ (s : State) (k : Combo) (v : Word), s.comboValue k = some v →
    ∃ t, exec (.cdv k) s = .next t ∧ t.c.toNat = s.a.toNat / 2 ^ v.toNat ∧ t.a = s.a ∧ t.b = s.b ∧ s.Advanced t ∧
      s.SameImem t ∧ s.SameOut t ∧ s.SameControl t

/-- Tier 2. bxl (42_bitwise.md R120): every operand is a legal literal, 7 included; B becomes B xor the literal, so
B[63:3] is kept; all else unchanged but for the default advance. -/
def Obligations.BxlXorsLiteralIntoB : Prop :=
  (∀ k : Digit, decode 1#64 (zext64 k) = .ok (.bxl k)) ∧
  ∀ (s : State) (k : Digit),
    ∃ t, exec (.bxl k) s = .next t ∧ t.b.toNat = s.b.toNat ^^^ k.toNat ∧ t.b.toNat / 8 = s.b.toNat / 8 ∧ t.a = s.a ∧
      t.c = s.c ∧ s.Advanced t ∧ s.SameImem t ∧ s.SameOut t ∧ s.SameControl t

/-- Tier 2. bst (42_bitwise.md R121): its words; on every combo value it completes with B the value mod 8, all else
unchanged but for the default advance; with operand word 7 it faults and B is unchanged. -/
def Obligations.BstSetsBToValueMod8 : Prop :=
  (∀ k : Digit, k ≠ 7#3 → decode 2#64 (zext64 k) = .ok (.bst (comboOf k))) ∧ ReservedOperandFaults 2#64 ∧
  ∀ (s : State) (k : Combo) (v : Word), s.comboValue k = some v →
    ∃ t, exec (.bst k) s = .next t ∧ t.b.toNat = v.toNat % 8 ∧ t.a = s.a ∧ t.c = s.c ∧ s.Advanced t ∧
      s.SameImem t ∧ s.SameOut t ∧ s.SameControl t

/-- Tier 2. bxc (42_bitwise.md R122): every operand is legal and none is read, and an operand word above 7 is still
BadOperand; B becomes B xor C, all else unchanged but for the default advance. -/
def Obligations.BxcXorsCIntoB : Prop :=
  (∀ k : Digit, decode 4#64 (zext64 k) = .ok (.bxc k)) ∧
  (∀ arg : Word, 7 < arg.toNat → decode 4#64 arg = .error .badOperand) ∧
  ∀ (s : State) (k : Digit),
    ∃ t, exec (.bxc k) s = .next t ∧ (∀ k' : Digit, exec (.bxc k') s = .next t) ∧
      t.b.toNat = s.b.toNat ^^^ s.c.toNat ∧ t.a = s.a ∧ t.c = s.c ∧ s.Advanced t ∧ s.SameImem t ∧ s.SameOut t ∧
      s.SameControl t

/-- Tier 2. jnz (43_control.md R140): every operand is a legal literal; with A not zero pc becomes exactly the operand,
with A zero pc advances by 2; all else unchanged. -/
def Obligations.JnzJumpsWhenANotZero : Prop :=
  (∀ k : Digit, decode 3#64 (zext64 k) = .ok (.jnz k)) ∧
  ∀ (s : State) (k : Digit),
    ∃ t, exec (.jnz k) s = .next t ∧ (s.a.toNat ≠ 0 → t.pc.toNat = k.toNat) ∧ (s.a.toNat = 0 → s.Advanced t) ∧
      s.SameRegs t ∧ s.SameImem t ∧ s.SameOut t ∧ s.SameControl t

/-- Tier 2. out (44_output.md R150): its words; with room in OUT it completes by appending the combo value mod 8 at index
OUT_LEN, all else unchanged but for the default advance; with OUT_LEN = OUT_CAP it raises OutputOverflow and changes
nothing else; with operand word 7 it faults and nothing is appended. -/
def Obligations.OutAppendsValueMod8 : Prop :=
  (∀ k : Digit, k ≠ 7#3 → decode 5#64 (zext64 k) = .ok (.out (comboOf k))) ∧ ReservedOperandFaults 5#64 ∧
  ∀ (s : State) (k : Combo) (v : Word), s.comboValue k = some v →
    (s.config.outCap ≠ some s.outLen →
      ∃ t d, exec (.out k) s = .next t ∧ d.toNat = v.toNat % 8 ∧ s.Appended t d ∧ s.SameRegs t ∧ s.Advanced t ∧
        s.SameImem t ∧ s.SameControl t) ∧
    (s.config.outCap = some s.outLen → ∃ t, exec (.out k) s = .next t ∧ s.FaultedOnly t 4#3)

/-! ### What instructions read and write -/

/-- Tier 2. The writers of each register (10_state.md R22, which the spec derives from the instruction rules): A is
changed by adv alone, B by bxl, bst, bxc and bdv, C by cdv. -/
def Obligations.RegisterWriters : Prop :=
  ∀ (i : Instr) (s t : State) (r : Reg), exec i s = .next t → i.writes r = false → t.reg r = s.reg r

/-- Tier 2. The readers of each register (10_state.md R22, derived there): an instruction that does not read a register
does the same whatever it holds. Either it overwrites the register, and the two outcomes are equal, or it does not, and
they differ in that register alone. -/
def Obligations.UnreadRegisterDoesNotMatter : Prop :=
  ∀ (i : Instr) (s t : State) (r : Reg) (v : Word), i.wellFormed = true → i.reads r = false → exec i s = .next t →
    (i.writes r = false → exec i (s.writeReg r v) = .next (t.writeReg r v)) ∧
    (i.writes r = true → exec i (s.writeReg r v) = .next t)

/-- Tier 2. OUT is written by out alone and only by an append at OUT_LEN, and nothing reads an entry during a run: a
step on other entries of the same number does the same to the rest of the machine and appends the same (20_memory.md
R43). -/
def Obligations.OutWrittenOnlyByAppend : Prop :=
  (∀ (i : Instr) (s t : State), exec i s = .next t →
    s.SameOut t ∨ ∃ (k : Combo) (d : Digit), i = .out k ∧ d.toNat ≤ 7 ∧ s.Appended t d) ∧
  (∀ (s t : State) (other : List Digit), s.runState = .running → other.length = s.outLen → step s = .next t →
    ∃ added, t.out = s.out ++ added ∧ step (s.withOut other) = .next (t.withOut (other ++ added)))

/-- Tier 2. IMEM does not change during a run: no step and no instruction writes it, and a Launch, the host's one way to write it short of
Reset, is refused while RUNNING (20_memory.md R42). -/
def Obligations.ImemUnchangedDuringRun : Prop :=
  (∀ s t : State, s.runState = .running → step s = .next t → s.SameImem t) ∧
  (∀ (i : Instr) (s t : State), exec i s = .next t → s.SameImem t) ∧
  ∀ (s : State) (a b c : Word) (prog : List Word), s.runState = .running →
    s.launch a b c prog = .refused .launchWhileRunning

/-- Tier 2. Nothing in a run removes or changes an entry of OUT: after any number of steps the entries of before are
still there, in order (10_state.md section 5: "Nothing in a run removes or changes an entry"). -/
def Obligations.OutEntriesPersist : Prop :=
  ∀ (n : Nat) (s t : State), runSteps n s = .next t → s.out <+: t.out

/-- Tier 2. A word that a step does not fetch does not matter to it, whatever it holds (30_encoding.md R69, the spec's
decision D6). -/
def Obligations.UnfetchedWordDoesNotMatter : Prop :=
  ∀ (s t : State) (j : Nat) (w : Word), j ≠ s.pc.toNat → j ≠ s.pc.toNat + 1 → step s = .next t →
    step (s.withImemWord j w) = .next (t.withImemWord j w)

/-! ### The step -/

/-- Tier 1. A step runs the decoded instruction: when CORE is running, no cap is reached and the pair at pc decodes to
i, the step is exec of i, and afterwards STEPS is one more, saturating, unless i ended the run in a fault
(40_execution_loop.md R80, R86; the counter is the spec's decision D10). -/
def Obligations.StepRunsDecodedInstruction : Prop :=
  ∀ (s t : State) (op arg : Word) (i : Instr), s.AtPair op arg → decode op arg = .ok i → exec i s = .next t →
    (t.runState = .running →
      ∃ u, step s = .next u ∧ u.steps.toNat = min (s.steps.toNat + 1) (2 ^ 64 - 1) ∧ u = { t with steps := u.steps }) ∧
    (t.runState ≠ .running → step s = .next t)

/-- Tier 1. The fetch reads the words at pc and pc + 1 at any index, even or odd, and pc + 1 < N is its only condition
(20_memory.md R45). -/
def Obligations.FetchAtAnyIndex : Prop :=
  ∀ s : State,
    (s.pc.toNat + 1 < s.n → ∃ op arg, s.imemRead s.pc.toNat = some op ∧ s.imemRead (s.pc.toNat + 1) = some arg ∧
      s.fetchPair = some (op, arg)) ∧
    (s.n ≤ s.pc.toNat + 1 → s.fetchPair = none)

/-- Tier 2. The halt test (40_execution_loop.md R81): if pc + 1 >= N a running CORE halts with CAUSE 0 and A, B, C, pc,
OUT, STEPS and IMEM as they were, whatever word is at pc and whatever the step cap; otherwise it does not halt. -/
def Obligations.HaltsWhenNoOperandWord : Prop :=
  ∀ s : State, s.runState = .running →
    (s.n ≤ s.pc.toNat + 1 →
      ∃ t, step s = .next t ∧ t.runState = .halted ∧ t.causeField = 0#3 ∧ s.SameRegs t ∧ t.pc = s.pc ∧ s.SameImem t ∧
        s.SameOut t ∧ t.steps = s.steps ∧ t.config = s.config) ∧
    (s.pc.toNat + 1 < s.n → ∀ t, step s = .next t → t.runState ≠ .halted)

/-- Tier 2. An opcode word above 7, whatever the operand word, ends the run in BadOpcode and changes nothing else; it is
not reduced to its low bits (60_exceptions.md R161). -/
def Obligations.OpcodeAbove7Faults : Prop :=
  ∀ (s : State) (op arg : Word), s.AtPair op arg → 7 < op.toNat → ∃ t, step s = .next t ∧ s.FaultedOnly t 1#3

/-- Tier 2. A legal opcode word with an operand word above 7, for every opcode, ends the run in BadOperand and changes
nothing else (60_exceptions.md R162, the spec's decision D5). -/
def Obligations.OperandAbove7Faults : Prop :=
  ∀ (s : State) (op arg : Word), s.AtPair op arg → op.toNat ≤ 7 → 7 < arg.toNat →
    ∃ t, step s = .next t ∧ s.FaultedOnly t 2#3

/-- Tier 2. A combo opcode (0, 2, 5, 6 or 7) with operand word 7 ends the run in ReservedCombo and changes nothing else;
bxl 7, jnz 7 and bxc 7 do not fault (60_exceptions.md R163). -/
def Obligations.Operand7FaultsInComboOnly : Prop :=
  (∀ (s : State) (op : Word), s.AtPair op 7#64 → comboOpcode op = true → ∃ t, step s = .next t ∧ s.FaultedOnly t 3#3) ∧
  (∀ (s : State) (op : Word), s.AtPair op 7#64 → op.toNat ≤ 7 → comboOpcode op = false →
    ∃ t, step s = .next t ∧ t.runState = .running)

/-- Tier 2. A full output buffer: an out at pc ends the run in OutputOverflow, and OUT, pc, the registers and STEPS are
unchanged; with OUT_CAP unbounded no step that faults records that cause (44_output.md R151 and 60_exceptions.md R164, the spec's
decision D9). -/
def Obligations.FullBufferFaultsOut : Prop :=
  (∀ (s : State) (arg : Word), s.AtPair 5#64 arg → arg.toNat ≤ 6 → s.config.outCap = some s.outLen →
    ∃ t, step s = .next t ∧ s.FaultedOnly t 4#3) ∧
  (∀ s t : State, s.runState = .running → s.config.outCap = none → step s = .next t → t.runState = .faulted →
    t.causeField ≠ 4#3)

/-- Tier 2. The step cap: a running step that passes the halt test with STEPS = STEP_CAP ends the run in StepLimit and
changes nothing else, before any word is decoded; with no cap set no step that faults records that cause (40_execution_loop.md R82
and 60_exceptions.md R165, the spec's decision D10). -/
def Obligations.StepCapFaults : Prop :=
  (∀ s : State, s.runState = .running → s.pc.toNat + 1 < s.n → s.config.stepCap = some s.steps.toNat →
    ∃ t, step s = .next t ∧ s.FaultedOnly t 5#3) ∧
  (∀ s t : State, s.runState = .running → s.config.stepCap = none → step s = .next t → t.runState = .faulted →
    t.causeField ≠ 5#3)

/-- Tier 2. The order of the tests of one step: halt, StepLimit, BadOpcode, BadOperand, ReservedCombo, OutputOverflow,
and a step that meets none of them goes on running (60_exceptions.md R166, the spec's decision D7). For a STEP_CAP of
2^64 or more, that STEPS never reaches it is the model's choice (log entry 16). -/
def Obligations.FaultPriority : Prop :=
  ∀ s t : State, s.runState = .running → step s = .next t →
    if s.n ≤ s.pc.toNat + 1 then t.runState = .halted
    else if s.config.stepCap = some s.steps.toNat then t.runState = .faulted ∧ t.causeField = 5#3
    else ∃ op arg, s.imemRead s.pc.toNat = some op ∧ s.imemRead (s.pc.toNat + 1) = some arg ∧
      if 7 < op.toNat then t.runState = .faulted ∧ t.causeField = 1#3
      else if 7 < arg.toNat then t.runState = .faulted ∧ t.causeField = 2#3
      else if comboOpcode op = true ∧ arg.toNat = 7 then t.runState = .faulted ∧ t.causeField = 3#3
      else if op.toNat = 5 ∧ s.config.outCap = some s.outLen then t.runState = .faulted ∧ t.causeField = 4#3
      else t.runState = .running

/-- Tier 2. Faults are precise: a step that ends a run in a fault changes STATUS alone, and records one of the five
causes (60_exceptions.md R167, the spec's decision D8). -/
def Obligations.FaultsArePrecise : Prop :=
  ∀ s t : State, s.runState = .running → step s = .next t → t.runState = .faulted →
    s.FaultedOnly t t.causeField ∧ 1 ≤ t.causeField.toNat ∧ t.causeField.toNat ≤ 5

/-- Tier 2. STEPS counts executed instructions: a step that leaves CORE running adds 1, saturating at 2^64-1, and a step
that halts or faults adds nothing (40_execution_loop.md R88, the spec's decision D10). -/
def Obligations.StepsCountsExecutedInstructions : Prop :=
  ∀ s t : State, s.runState = .running → step s = .next t →
    (t.runState = .running → t.steps.toNat = min (s.steps.toNat + 1) (2 ^ 64 - 1)) ∧
    (t.runState ≠ .running → t.steps = s.steps)

/-- Tier 2. How pc changes (10_state.md R25): a Launch and a Reset set it to 0; a step that executes an instruction sets it
to the operand for a taken jnz and adds exactly 2 for every other; a halt or a fault leaves it. The invariant rules out
a pc so near 2^64 that the sum would not fit. -/
def Obligations.PcChangesOnlyAsListed : Prop :=
  (∀ (s t : State) (a b c : Word) (prog : List Word), s.launch a b c prog = .next t → t.pc = 0#64) ∧
  (∀ s : State, s.assertReset.pc = 0#64) ∧
  (∀ s t : State, s.Inv → s.runState = .running → step s = .next t →
    (t.runState ≠ .running → t.pc = s.pc) ∧
    (t.runState = .running → ∃ op arg, s.imemRead s.pc.toNat = some op ∧ s.imemRead (s.pc.toNat + 1) = some arg ∧
      if op = 3#64 ∧ s.a ≠ 0#64 then t.pc = arg ∧ arg.toNat ≤ 7 else t.pc.toNat = s.pc.toNat + 2))

/-- Tier 2. A jump past the end is legal: a taken jnz to a target k with k + 1 >= N halts at the next step with pc = k
(43_control.md R141, which the spec derives from R140 and R81). -/
def Obligations.JumpPastEndHaltsNext : Prop :=
  ∀ (s : State) (k : Digit), s.AtPair 3#64 (zext64 k) → s.a ≠ 0#64 → s.n ≤ k.toNat + 1 →
    ∃ t, runSteps 2 s = .next t ∧ t.runState = .halted ∧ t.pc.toNat = k.toNat

/-- Tier 2. A jnz to its own index with A not zero and no step cap loops for ever: after any number of steps CORE is
still running at that index (40_execution_loop.md section 2: a run need not terminate; 43_control.md R140's corner
case). -/
def Obligations.JumpToItselfNeverStops : Prop :=
  ∀ (s : State) (k : Digit), s.AtPair 3#64 (zext64 k) → s.pc = zext64 k → s.a ≠ 0#64 → s.config.stepCap = none →
    ∀ n, ∃ t, runSteps n s = .next t ∧ t.runState = .running ∧ t.pc = s.pc

/-- Tier 2. In IDLE, HALTED and FAULTED CORE takes no step: all state is kept, for any number of steps. That the model's
step answers the unchanged state there is log entry 3 (40_execution_loop.md R80: "The state stays as it is until the
host acts"; 60_exceptions.md R168, R178, the spec's decision D17). -/
def Obligations.StoppedStatesStay : Prop :=
  ∀ (n : Nat) (s : State), s.runState ≠ .running → runSteps n s = .next s

/-- Tier 2. The model's step always answers a next state: it never reads IMEM outside its bounds (20_memory.md R41,
derived there), and it refuses no instruction (log entries 3, 4 and 12). -/
def Obligations.StepAlwaysAnswersNext : Prop :=
  ∀ s : State, ∃ t, step s = .next t

/-! ### Invariants and runs -/

/-- Tier 1. The state after reset meets the invariant (10_state.md R34); its parameters are the model's defaults (log
entry 2). -/
def Obligations.ResetMeetsInvariant : Prop := State.reset.Inv

/-- Tier 3. Every step keeps the invariant: the memories stay within their capacities, STATUS stays a legal pair with
its reserved bits 0, pc stays at most max(N, 7), STEPS never exceeds a set STEP_CAP, and an idle CORE is empty
(10_state.md R26, R28, R29, R30, R31, R34, the spec's decisions and derivations). -/
def Obligations.StepKeepsInvariant : Prop :=
  ∀ s t : State, s.Inv → step s = .next t → t.Inv

/-- Tier 2. Every move of the host keeps the invariant: Reset always, and a Launch from a state that meets it
(70_reset_and_hazards.md R190, R191). -/
def Obligations.HostMovesKeepInvariant : Prop :=
  ∀ s : State, s.Inv →
    s.assertReset.Inv ∧ ∀ (a b c : Word) (prog : List Word) (t : State), s.launch a b c prog = .next t → t.Inv

/-- Tier 3. Every state CORE reaches, by Resets, Launches and steps in any order and for every admitted choice of the
parameters, meets the invariant, and its pc is far below 2^64, so that pc + 2 never wraps (10_state.md R26, derived
there). -/
def Obligations.ReachedStatesMeetInvariant : Prop :=
  ∀ s : State, Reached s → s.Inv ∧ s.pc.toNat + 2 < 2 ^ 64

/-- Tier 2. A single-step view through the step cap: with STEP_CAP = c, the steps of a run that stay within c executed
instructions equal those of the uncapped run, cap aside (60_exceptions.md R177, the spec's decision D17). -/
def Obligations.CappedRunAgreesWithUncapped : Prop :=
  ∀ (n c : Nat) (s t : State), s.config.stepCap = none → s.steps.toNat + n ≤ c → runSteps n s = .next t →
    runSteps n (s.withStepCap (some c)) = .next (t.withStepCap (some c))

/-! ### Reset and the host -/

/-- Tier 1. What Reset leaves (10_state.md R34, 70_reset_and_hazards.md R190, the spec's decision D14): pc 0, IMEM and OUT
empty, IDLE with no cause, STEPS 0, from any state, and a host read of A, B or C is refused. The numbers the model holds
in A, B and C are its own (log entry 1) and are not stated. -/
def Obligations.ResetLeavesEmptyIdle : Prop :=
  ∀ s : State,
    s.assertReset.pc = 0#64 ∧ s.assertReset.n = 0 ∧ s.assertReset.outLen = 0 ∧ s.assertReset.runState = .idle ∧
    s.assertReset.causeField = 0#3 ∧ s.assertReset.steps = 0#64 ∧ s.assertReset.config = s.config ∧
    ∀ r : Reg, s.assertReset.hostRead (.reg r) = .error .readOfNoValue

/-- Tier 1. Launch (70_reset_and_hazards.md R191): from a stopped CORE and within IMEM_CAP it writes all run state, and
it checks no word of the program. -/
def Obligations.LaunchStartsRun : Prop :=
  ∀ (s : State) (a b c : Word) (prog : List Word), s.runState ≠ .running → prog.length ≤ s.config.imemCap →
    ∃ t, s.launch a b c prog = .next t ∧ t.a = a ∧ t.b = b ∧ t.c = c ∧ t.n = prog.length ∧
      (∀ i, t.imemRead i = prog[i]?) ∧ t.pc = 0#64 ∧ t.outLen = 0 ∧ t.steps = 0#64 ∧ t.runState = .running ∧
      t.causeField = 0#3 ∧ t.config = s.config

/-- Tier 1. When a Launch is refused: while RUNNING, or when the program is longer than IMEM_CAP
(70_reset_and_hazards.md R192, the spec's decisions D13 and D4). -/
def Obligations.LaunchRefusals : Prop :=
  ∀ (s : State) (a b c : Word) (prog : List Word),
    (s.runState = .running → s.launch a b c prog = .refused .launchWhileRunning) ∧
    (s.runState ≠ .running → s.config.imemCap < prog.length → s.launch a b c prog = .refused .launchTooLong)

/-- Tier 1. Runs are independent: two Launches of the same inputs on machines of the same parameters give the same state
after every number of steps, whatever the earlier runs left (70_reset_and_hazards.md R196, derived there). -/
def Obligations.RunsAreIndependent : Prop :=
  ∀ (s s' t : State) (a b c : Word) (prog : List Word), s.config = s'.config → s'.runState ≠ .running →
    s.launch a b c prog = .next t →
    ∃ t', s'.launch a b c prog = .next t' ∧ ∀ n, runSteps n t = runSteps n t'

/-- Tier 1. Host reads (70_reset_and_hazards.md R193, the spec's decision D12): STATUS at any time, with its bits [7:5] 0;
once stopped, pc, STEPS and each entry of OUT below OUT_LEN, zero-extended, OUT_LEN where it fits its 64 bits, and A, B
and C unless IDLE; all but STATUS refused while RUNNING. -/
def Obligations.HostReads : Prop :=
  ∀ s : State,
    (∃ w, s.hostRead .status = .ok w ∧ w.toNat < 32 ∧ w.toNat % 4 = s.runState.code.toNat ∧
      w.toNat / 4 = s.causeField.toNat) ∧
    (s.runState = .running → ∀ r, r ≠ .status → s.hostRead r = .error .readWhileRunning) ∧
    (s.runState ≠ .running → s.hostRead .pc = .ok s.pc ∧ s.hostRead .steps = .ok s.steps ∧
      (s.outLen < 2 ^ 64 → ∃ w, s.hostRead .outLen = .ok w ∧ w.toNat = s.outLen) ∧
      (∀ i, s.outLen ≤ i → s.hostRead (.outEntry i) = .error .readPastOutput) ∧
      (∀ i d, s.outEntry i = some d → ∃ w, s.hostRead (.outEntry i) = .ok w ∧ w.toNat = d.toNat)) ∧
    (s.runState = .halted ∨ s.runState = .faulted → ∀ r, s.hostRead (.reg r) = .ok (s.reg r)) ∧
    (s.runState = .idle → ∀ r, s.hostRead (.reg r) = .error .readOfNoValue)

/-- Tier 1. The result of a run (70_reset_and_hazards.md R195, the spec's decision D8): the output sequence with the final
A, B, C and pc when HALTED, the CAUSE when FAULTED, none otherwise. -/
def Obligations.ResultOfRun : Prop :=
  ∀ s : State,
    (s.runState = .halted → ∃ output, s.result = some (.ok output s.a s.b s.c s.pc) ∧ output.length = s.outLen ∧
      ∀ i d, s.outEntry i = some d → ∃ w, output[i]? = some w ∧ w.toNat = d.toNat) ∧
    (s.runState = .faulted → s.result = some (.err s.causeField)) ∧
    (s.runState = .running ∨ s.runState = .idle → s.result = none)
end

