-- ==== Sys2Proof/Laws/Decode.lean ====
section
/-! SUPPORT. The fields of a pair of words, and the combo form against its field (30_encoding.md R61 to R67). -/

namespace Sys2Proof

/-- The combo form of a field gives the field back, at all eight values. -/
@[simp] theorem comboOf_field (k : Digit) : (comboOf k).field = k := by
  revert k; decide

@[simp] theorem field_comboOf (k : Combo) : comboOf k.field = k := by
  cases k with
  | lit v => revert v; decide
  | reg r => cases r <;> decide
  | reserved => decide

/-- Only the field 7 is reserved (30_encoding.md R64). -/
theorem comboOf_wellFormed (k : Digit) : (comboOf k).wellFormed = (k != 7#3) := by
  revert k; decide

@[simp] theorem wordOf_toNat (k : Digit) : (wordOf k).toNat = k.toNat := by
  simp only [wordOf, BitVec.toNat_setWidth]
  exact Nat.mod_eq_of_lt (by omega)

theorem operandOf_eq_none {arg : Word} : operandOf arg = none ↔ 7 < arg.toNat := by
  simp [operandOf]

/-- The operand field of a legal word, and the word of the field. -/
theorem operandOf_eq_some {arg : Word} {k : Digit} : operandOf arg = some k ↔ arg = wordOf k := by
  constructor
  · intro h
    unfold operandOf at h
    split at h
    · obtain rfl := Option.some.inj h
      apply BitVec.eq_of_toNat_eq
      simp only [wordOf_toNat, BitVec.toNat_ofNat]
      exact (Nat.mod_eq_of_lt (by omega)).symm
    · cases h
  · rintro rfl
    have hk : k.toNat ≤ 7 := by omega
    simp [operandOf, hk]

/-- The opcode word of an opcode (30_encoding.md R67). -/
def Opcode.word (o : Opcode) : Word :=
  match o with
  | .adv => 0#64
  | .bxl => 1#64
  | .bst => 2#64
  | .jnz => 3#64
  | .bxc => 4#64
  | .out => 5#64
  | .bdv => 6#64
  | .cdv => 7#64

theorem opcodeOf_eq_none {op : Word} : opcodeOf op = none ↔ 7 < op.toNat := by
  unfold opcodeOf
  split <;> simp_all
  omega

theorem opcodeOf_eq_some {op : Word} {o : Opcode} : opcodeOf op = some o ↔ op = o.word := by
  constructor
  · intro h
    unfold opcodeOf at h
    split at h <;> first
      | (obtain rfl := Option.some.inj h; apply BitVec.eq_of_toNat_eq; assumption)
      | cases h
  · rintro rfl
    cases o <;> rfl

/-- The words of an instruction are those of its opcode and its operand field. -/
theorem encode_instrOf (o : Opcode) (k : Digit) : encode (instrOf o k) = (o.word, wordOf k) := by
  cases o <;> simp [encode, instrOf, Opcode.word]

end Sys2Proof
end

