-- ==== Sys2Proof/Laws/State.lean ====
section
/-! SUPPORT. One lemma per field and update of the state, true by unfolding the update once. -/

namespace Sys2Proof.Machine

/-! ### State.writeReg -/

@[simp] theorem State.reg_a (s : State) : s.reg .a = s.a := rfl
@[simp] theorem State.reg_b (s : State) : s.reg .b = s.b := rfl
@[simp] theorem State.reg_c (s : State) : s.reg .c = s.c := rfl

@[simp] theorem State.writeReg_a_a (s : State) (v : Word) : (s.writeReg .a v).a = v := rfl
@[simp] theorem State.writeReg_a_b (s : State) (v : Word) : (s.writeReg .a v).b = s.b := rfl
@[simp] theorem State.writeReg_a_c (s : State) (v : Word) : (s.writeReg .a v).c = s.c := rfl
@[simp] theorem State.writeReg_b_a (s : State) (v : Word) : (s.writeReg .b v).a = s.a := rfl
@[simp] theorem State.writeReg_b_b (s : State) (v : Word) : (s.writeReg .b v).b = v := rfl
@[simp] theorem State.writeReg_b_c (s : State) (v : Word) : (s.writeReg .b v).c = s.c := rfl
@[simp] theorem State.writeReg_c_a (s : State) (v : Word) : (s.writeReg .c v).a = s.a := rfl
@[simp] theorem State.writeReg_c_b (s : State) (v : Word) : (s.writeReg .c v).b = s.b := rfl
@[simp] theorem State.writeReg_c_c (s : State) (v : Word) : (s.writeReg .c v).c = v := rfl

@[simp] theorem State.writeReg_pc (s : State) (r : Reg) (v : Word) : (s.writeReg r v).pc = s.pc := by cases r <;> rfl
@[simp] theorem State.writeReg_imem (s : State) (r : Reg) (v : Word) : (s.writeReg r v).imem = s.imem := by cases r <;> rfl
@[simp] theorem State.writeReg_out (s : State) (r : Reg) (v : Word) : (s.writeReg r v).out = s.out := by cases r <;> rfl
@[simp] theorem State.writeReg_status (s : State) (r : Reg) (v : Word) : (s.writeReg r v).status = s.status := by cases r <;> rfl
@[simp] theorem State.writeReg_steps (s : State) (r : Reg) (v : Word) : (s.writeReg r v).steps = s.steps := by cases r <;> rfl
@[simp] theorem State.writeReg_config (s : State) (r : Reg) (v : Word) : (s.writeReg r v).config = s.config := by cases r <;> rfl

/-! ### State.jump and State.advance -/

@[simp] theorem State.jump_a (s : State) (p : Word) : (s.jump p).a = s.a := rfl
@[simp] theorem State.jump_b (s : State) (p : Word) : (s.jump p).b = s.b := rfl
@[simp] theorem State.jump_c (s : State) (p : Word) : (s.jump p).c = s.c := rfl
@[simp] theorem State.jump_pc (s : State) (p : Word) : (s.jump p).pc = p := rfl
@[simp] theorem State.jump_imem (s : State) (p : Word) : (s.jump p).imem = s.imem := rfl
@[simp] theorem State.jump_out (s : State) (p : Word) : (s.jump p).out = s.out := rfl
@[simp] theorem State.jump_status (s : State) (p : Word) : (s.jump p).status = s.status := rfl
@[simp] theorem State.jump_steps (s : State) (p : Word) : (s.jump p).steps = s.steps := rfl
@[simp] theorem State.jump_config (s : State) (p : Word) : (s.jump p).config = s.config := rfl

@[simp] theorem State.advance_a (s : State) : s.advance.a = s.a := rfl
@[simp] theorem State.advance_b (s : State) : s.advance.b = s.b := rfl
@[simp] theorem State.advance_c (s : State) : s.advance.c = s.c := rfl
@[simp] theorem State.advance_pc (s : State) : s.advance.pc = s.pc + 2#64 := rfl
@[simp] theorem State.advance_imem (s : State) : s.advance.imem = s.imem := rfl
@[simp] theorem State.advance_out (s : State) : s.advance.out = s.out := rfl
@[simp] theorem State.advance_status (s : State) : s.advance.status = s.status := rfl
@[simp] theorem State.advance_steps (s : State) : s.advance.steps = s.steps := rfl
@[simp] theorem State.advance_config (s : State) : s.advance.config = s.config := rfl

/-! ### State.appendOut -/

@[simp] theorem State.appendOut_a (s : State) (v : Digit) : (s.appendOut v).a = s.a := rfl
@[simp] theorem State.appendOut_b (s : State) (v : Digit) : (s.appendOut v).b = s.b := rfl
@[simp] theorem State.appendOut_c (s : State) (v : Digit) : (s.appendOut v).c = s.c := rfl
@[simp] theorem State.appendOut_pc (s : State) (v : Digit) : (s.appendOut v).pc = s.pc := rfl
@[simp] theorem State.appendOut_imem (s : State) (v : Digit) : (s.appendOut v).imem = s.imem := rfl
@[simp] theorem State.appendOut_out (s : State) (v : Digit) : (s.appendOut v).out = s.out ++ [v] := rfl
@[simp] theorem State.appendOut_status (s : State) (v : Digit) : (s.appendOut v).status = s.status := rfl
@[simp] theorem State.appendOut_steps (s : State) (v : Digit) : (s.appendOut v).steps = s.steps := rfl
@[simp] theorem State.appendOut_config (s : State) (v : Digit) : (s.appendOut v).config = s.config := rfl

/-! ### State.setStatus -/

@[simp] theorem State.setStatus_a (s : State) (r : RunState) (c : BitVec 3) : (s.setStatus r c).a = s.a := rfl
@[simp] theorem State.setStatus_b (s : State) (r : RunState) (c : BitVec 3) : (s.setStatus r c).b = s.b := rfl
@[simp] theorem State.setStatus_c (s : State) (r : RunState) (c : BitVec 3) : (s.setStatus r c).c = s.c := rfl
@[simp] theorem State.setStatus_pc (s : State) (r : RunState) (c : BitVec 3) : (s.setStatus r c).pc = s.pc := rfl
@[simp] theorem State.setStatus_imem (s : State) (r : RunState) (c : BitVec 3) : (s.setStatus r c).imem = s.imem := rfl
@[simp] theorem State.setStatus_out (s : State) (r : RunState) (c : BitVec 3) : (s.setStatus r c).out = s.out := rfl
@[simp] theorem State.setStatus_status (s : State) (r : RunState) (c : BitVec 3) :
    (s.setStatus r c).status = statusOf r c := rfl
@[simp] theorem State.setStatus_steps (s : State) (r : RunState) (c : BitVec 3) : (s.setStatus r c).steps = s.steps := rfl
@[simp] theorem State.setStatus_config (s : State) (r : RunState) (c : BitVec 3) :
    (s.setStatus r c).config = s.config := rfl

/-! ### State.countStep -/

@[simp] theorem State.countStep_a (s : State) : s.countStep.a = s.a := rfl
@[simp] theorem State.countStep_b (s : State) : s.countStep.b = s.b := rfl
@[simp] theorem State.countStep_c (s : State) : s.countStep.c = s.c := rfl
@[simp] theorem State.countStep_pc (s : State) : s.countStep.pc = s.pc := rfl
@[simp] theorem State.countStep_imem (s : State) : s.countStep.imem = s.imem := rfl
@[simp] theorem State.countStep_out (s : State) : s.countStep.out = s.out := rfl
@[simp] theorem State.countStep_status (s : State) : s.countStep.status = s.status := rfl
@[simp] theorem State.countStep_config (s : State) : s.countStep.config = s.config := rfl

theorem State.countStep_steps_toNat (s : State) :
    s.countStep.steps.toNat = min (s.steps.toNat + 1) (2 ^ 64 - 1) := by
  simp only [State.countStep, BitVec.toNat_ofNat]
  exact Nat.mod_eq_of_lt (by omega)

end Sys2Proof.Machine
end

