-- ==== Sys2Proof/Laws/Ops.lean ====
section
/-! SUPPORT. What each shared operation can do, said once: STATUS packing, the fetch, combo operands, the bounds of the
memories, and the retirement of an instruction. -/

namespace Sys2Proof.Machine

/-! ### STATUS -/

@[simp] theorem runState_ofCode_statusOf (r : RunState) (c : BitVec 3) :
    RunState.ofCode ((statusOf r c).extractLsb' 0 2) = r := by
  revert c; cases r <;> decide

@[simp] theorem cause_statusOf (r : RunState) (c : BitVec 3) : (statusOf r c).extractLsb' 2 3 = c := by
  revert c; cases r <;> decide

@[simp] theorem State.setStatus_runState (s : State) (r : RunState) (c : BitVec 3) : (s.setStatus r c).runState = r := by
  simp [State.runState]

@[simp] theorem State.setStatus_causeField (s : State) (r : RunState) (c : BitVec 3) :
    (s.setStatus r c).causeField = c := by
  simp [State.causeField]

/-- STATE and CAUSE are read from STATUS alone. -/
theorem State.runState_congr {s t : State} (h : t.status = s.status) : t.runState = s.runState := by
  simp [State.runState, h]

theorem State.causeField_congr {s t : State} (h : t.status = s.status) : t.causeField = s.causeField := by
  simp [State.causeField, h]

@[simp] theorem State.writeReg_runState (s : State) (r : Reg) (v : Word) : (s.writeReg r v).runState = s.runState :=
  State.runState_congr (by simp)
@[simp] theorem State.jump_runState (s : State) (p : Word) : (s.jump p).runState = s.runState := rfl
@[simp] theorem State.advance_runState (s : State) : s.advance.runState = s.runState := rfl
@[simp] theorem State.appendOut_runState (s : State) (v : Digit) : (s.appendOut v).runState = s.runState := rfl
@[simp] theorem State.countStep_runState (s : State) : s.countStep.runState = s.runState := rfl
@[simp] theorem State.halt_runState (s : State) : s.halt.runState = .halted := by simp [State.halt]
@[simp] theorem State.raise_runState (s : State) (c : Cause) : (s.raise c).runState = .faulted := by simp [State.raise]
@[simp] theorem State.halt_causeField (s : State) : s.halt.causeField = 0#3 := by simp [State.halt]
@[simp] theorem State.raise_causeField (s : State) (c : Cause) : (s.raise c).causeField = c.code := by simp [State.raise]

@[simp] theorem State.running_eq_true (s : State) : s.running = true ↔ s.runState = .running := by simp [State.running]
@[simp] theorem State.running_eq_false (s : State) : s.running = false ↔ s.runState ≠ .running := by
  simp [State.running]

/-- A STATUS value written from a legal STATE and CAUSE is legal (10_state.md R30). -/
theorem legalStatus_halted : legalStatus (statusOf .halted 0#3) = true := by decide

theorem legalStatus_running : legalStatus (statusOf .running 0#3) = true := by decide

theorem legalStatus_faulted (c : Cause) : legalStatus (statusOf .faulted c.code) = true := by
  cases c with
  | invalidInstruction r => cases r <;> decide
  | outputOverflow => decide
  | stepLimit => decide

/-- The causes a fault records are 1 to 5 (60_exceptions.md R160). -/
theorem Cause.code_range (c : Cause) : 1 ≤ c.code.toNat ∧ c.code.toNat ≤ 5 := by
  cases c with
  | invalidInstruction r => cases r <;> decide
  | outputOverflow => decide
  | stepLimit => decide

/-- Fault entry changes STATUS alone (60_exceptions.md R167). -/
theorem State.raise_faultedOnly (s : State) (c : Cause) : s.FaultedOnly (s.raise c) c.code :=
  ⟨by simp, by simp, ⟨rfl, rfl, rfl⟩, rfl, ⟨rfl, fun _ => rfl⟩, ⟨rfl, fun _ => rfl⟩, rfl, rfl⟩

/-! ### Reads of the two memories -/

theorem State.SameImem.of_imem_eq {s t : State} (h : t.imem = s.imem) : s.SameImem t := by
  simp [State.SameImem, State.n, State.imemRead, h]

theorem State.SameOut.of_out_eq {s t : State} (h : t.out = s.out) : s.SameOut t := by
  simp [State.SameOut, State.outLen, State.outEntry, h]

theorem State.Appended.of_out_eq {s t : State} {v : Digit} (h : t.out = s.out ++ [v]) : s.Appended t v := by
  refine ⟨by simp [State.outLen, h], by simp [State.outEntry, State.outLen, h], fun i hi => ?_⟩
  simp only [State.outEntry, State.outLen, h] at hi ⊢
  rcases Nat.lt_or_ge i s.out.length with hlt | hge
  · rw [List.getElem?_append_left hlt]
  · rw [List.getElem?_append_right hge, List.getElem?_eq_none hge]
    exact List.getElem?_eq_none (by simp; omega)

theorem State.fetchPair_eq_some {s : State} {op arg : Word} :
    s.fetchPair = some (op, arg) ↔ s.imemRead s.pc.toNat = some op ∧ s.imemRead (s.pc.toNat + 1) = some arg := by
  unfold State.fetchPair
  cases s.imemRead s.pc.toNat <;> cases s.imemRead (s.pc.toNat + 1) <;> simp

/-- Both words exist below N (20_memory.md R41). -/
theorem State.fetchPair_isSome {s : State} (h : s.pc.toNat + 1 < s.n) : ∃ op arg, s.fetchPair = some (op, arg) := by
  have h0 : s.pc.toNat < s.imem.length := by simp only [State.n] at h; omega
  have h1 : s.pc.toNat + 1 < s.imem.length := h
  exact ⟨s.imem[s.pc.toNat], s.imem[s.pc.toNat + 1], State.fetchPair_eq_some.mpr
    ⟨List.getElem?_eq_getElem h0, List.getElem?_eq_getElem h1⟩⟩

theorem State.lt_n_of_imemRead {s : State} {i : Nat} {w : Word} (h : s.imemRead i = some w) : i < s.n :=
  (List.getElem?_eq_some_iff.mp h).1

/-! ### The bounds of the memories, kept by every operation -/

theorem Memory.wf_reset : Memory.wf State.reset.config State.reset.imem State.reset.out = true := by decide

/-- An append to a buffer that is not full keeps the form (44_output.md R151). -/
theorem Memory.wf_appendOut {s : State} (v : Digit) (h : Memory.wf s.config s.imem s.out = true)
    (room : s.outFull = false) : Memory.wf s.config s.imem (s.appendOut v).out = true := by
  simp only [Memory.wf, Bool.and_eq_true, State.appendOut_out, List.length_append, List.length_singleton] at h ⊢
  refine ⟨h.1, ?_⟩
  have hw := h.2
  cases hc : s.config.outCap with
  | none => rfl
  | some cap =>
    simp only [hc, withinCap, decide_eq_true_eq] at hw ⊢
    simp only [State.outFull, hc, State.outLen, beq_eq_false_iff_ne, ne_eq] at room
    omega

/-- A Launch within IMEM_CAP writes memories of the form (70_reset_and_hazards.md R191). -/
theorem Memory.wf_launched (s : State) (a b c : Word) {prog : List Word} (h : prog.length ≤ s.config.imemCap) :
    Memory.wf (s.launched a b c prog).config (s.launched a b c prog).imem (s.launched a b c prog).out = true := by
  simp only [State.launched, Memory.wf, Bool.and_eq_true]
  refine ⟨decide_eq_true h, ?_⟩
  cases s.config.outCap <;> simp [withinCap]

/-- Reset empties both memories (70_reset_and_hazards.md R190). -/
theorem Memory.wf_assertReset (s : State) :
    Memory.wf s.assertReset.config s.assertReset.imem s.assertReset.out = true := by
  simp only [State.assertReset, State.reset, Memory.wf, Bool.and_eq_true]
  refine ⟨by simp, ?_⟩
  cases s.config.outCap <;> simp [withinCap]

/-! ### Capacity tests -/

theorem State.outFull_eq_true {s : State} : s.outFull = true ↔ s.config.outCap = some s.outLen := by
  unfold State.outFull
  cases h : s.config.outCap with
  | none => simp
  | some cap => rw [beq_iff_eq, Option.some.injEq]; exact eq_comm

theorem State.stepLimitReached_eq_true {s : State} :
    s.stepLimitReached = true ↔ s.config.stepCap = some s.steps.toNat := by
  unfold State.stepLimitReached
  cases h : s.config.stepCap with
  | none => simp
  | some cap => rw [beq_iff_eq, Option.some.injEq]; exact eq_comm

theorem State.haltTest_eq_true {s : State} : s.haltTest = true ↔ s.n ≤ s.pc.toNat + 1 := by simp [State.haltTest]

/-! ### Combo operands -/

theorem State.comboValue_eq_none {s : State} {k : Combo} : s.comboValue k = none ↔ k = .reserved := by
  cases k <;> simp [State.comboValue]

theorem State.withCombo_of_some {s : State} {k : Combo} {v : Word} (h : s.comboValue k = some v)
    (run : Word → Host.Outcome State Fault Refusal) : s.withCombo k run = run v := by
  simp [State.withCombo, h]

@[simp] theorem State.withCombo_reserved (s : State) (run : Word → Host.Outcome State Fault Refusal) :
    s.withCombo .reserved run = .next (s.raise (.invalidInstruction .reservedCombo)) := rfl

/-- Everything `withCombo` can answer. -/
theorem State.withCombo_cases (s : State) (k : Combo) (run : Word → Host.Outcome State Fault Refusal) :
    (∃ v, s.comboValue k = some v ∧ s.withCombo k run = run v) ∨
      (k = .reserved ∧ s.withCombo k run = .next (s.raise (.invalidInstruction .reservedCombo))) := by
  cases h : s.comboValue k with
  | some v => exact .inl ⟨v, rfl, State.withCombo_of_some h run⟩
  | none =>
    obtain rfl := State.comboValue_eq_none.mp h
    exact .inr ⟨rfl, rfl⟩

/-! ### Arithmetic -/

/-- The shift as a division (41_shift.md R103). -/
theorem shr_of_lt {x k : Word} (h : k.toNat < 64) : shr x k = x >>> k.toNat := by
  simp [shr, Nat.not_le.mpr h]

theorem shr_of_ge {x k : Word} (h : 64 ≤ k.toNat) : shr x k = 0#64 := by simp [shr, h]

@[simp] theorem mod8_toNat (x : Word) : (mod8 x).toNat = x.toNat % 8 := by simp [mod8]

@[simp] theorem zext64_toNat (v : Digit) : (zext64 v).toNat = v.toNat := by
  simp only [zext64, BitVec.toNat_setWidth]
  exact Nat.mod_eq_of_lt (by omega)

@[simp] theorem literalValue_toNat (k : Digit) : (literalValue k).toNat = k.toNat := zext64_toNat k

/-- The default advance is exact below the top of the program counter (10_state.md R26). -/
theorem State.advance_pc_toNat {s : State} (h : s.pc.toNat + 2 < 2 ^ 64) : s.advance.pc.toNat = s.pc.toNat + 2 := by
  simp only [State.advance_pc, BitVec.toNat_add, BitVec.toNat_ofNat]
  omega

end Sys2Proof.Machine
end

