-- ==== Sys2Proof/Laws/Exec.lean ====
section
/-! SUPPORT. What an instruction can do, what the front of a step can decide, and what a step can do: one inversion
lemma each, which later proofs cite instead of unfolding. -/

namespace Sys2Proof.Machine

/-- Everything an instruction can do to the state. -/
inductive ExecEffect (i : Instr) (s : State) : State → Prop where
  | wrote (d : Reg) (v : Word) (h : i.writes d = true) : ExecEffect i s (s.writeReg d v).advance
  | jumped (k : Digit) (h : i = .jnz k) (ha : s.a ≠ 0#64) : ExecEffect i s (s.jump (literalValue k))
  | fellThrough (k : Digit) (h : i = .jnz k) (ha : s.a = 0#64) : ExecEffect i s s.advance
  | appended (k : Combo) (v : Digit) (h : i = .out k) (room : s.outFull = false) : ExecEffect i s (s.appendOut v).advance
  | overflowed (k : Combo) (h : i = .out k) (hk : k ≠ .reserved) (full : s.outFull = true) :
      ExecEffect i s (s.raise .outputOverflow)
  | reserved (h : i.wellFormed = false) : ExecEffect i s (s.raise (.invalidInstruction .reservedCombo))

/-- Every instruction answers a next state, and its effect is one of `ExecEffect`. -/
theorem exec_effect (i : Instr) (s : State) : ∃ t, exec i s = .next t ∧ ExecEffect i s t := by
  cases i with
  | adv k =>
    obtain ⟨v, -, h⟩ | ⟨rfl, h⟩ := s.withCombo_cases k fun v => .next (s.writeReg .a (shr (s.reg .a) v)).advance
    · exact ⟨_, h, .wrote .a _ rfl⟩
    · exact ⟨_, h, .reserved rfl⟩
  | bxl k => exact ⟨_, rfl, .wrote .b _ rfl⟩
  | bst k =>
    obtain ⟨v, -, h⟩ | ⟨rfl, h⟩ := s.withCombo_cases k fun v => .next (s.writeReg .b (zext64 (mod8 v))).advance
    · exact ⟨_, h, .wrote .b _ rfl⟩
    · exact ⟨_, h, .reserved rfl⟩
  | jnz k =>
    by_cases ha : s.a = 0#64
    · exact ⟨s.advance, by simp [exec, execJnz, State.aNonZero, ha], .fellThrough k rfl ha⟩
    · exact ⟨s.jump (literalValue k), by simp [exec, execJnz, State.aNonZero, ha], .jumped k rfl ha⟩
  | bxc k => exact ⟨_, rfl, .wrote .b _ rfl⟩
  | out k =>
    obtain ⟨v, hv, h⟩ | ⟨rfl, h⟩ := s.withCombo_cases k
      fun v => .next (if s.outFull then s.raise .outputOverflow else (s.appendOut (mod8 v)).advance)
    · cases hf : s.outFull with
      | true =>
        refine ⟨_, h.trans (by simp only [hf, if_true]), .overflowed k rfl ?_ hf⟩
        rintro rfl
        cases hv
      | false => exact ⟨_, h.trans (by simp only [hf, Bool.false_eq_true, if_false]), .appended k (mod8 v) rfl hf⟩
    · exact ⟨_, h, .reserved rfl⟩
  | bdv k =>
    obtain ⟨v, -, h⟩ | ⟨rfl, h⟩ := s.withCombo_cases k fun v => .next (s.writeReg .b (shr (s.reg .a) v)).advance
    · exact ⟨_, h, .wrote .b _ rfl⟩
    · exact ⟨_, h, .reserved rfl⟩
  | cdv k =>
    obtain ⟨v, -, h⟩ | ⟨rfl, h⟩ := s.withCombo_cases k fun v => .next (s.writeReg .c (shr (s.reg .a) v)).advance
    · exact ⟨_, h, .wrote .c _ rfl⟩
    · exact ⟨_, h, .reserved rfl⟩

theorem exec_next_effect {i : Instr} {s t : State} (h : exec i s = .next t) : ExecEffect i s t := by
  obtain ⟨u, hu, he⟩ := exec_effect i s
  rw [h] at hu
  cases hu
  exact he

/-- Everything the front of a step can decide (40_execution_loop.md R80 to R84). -/
inductive IssueCase (s : State) : Issue → Prop where
  | stopped (h : s.runState ≠ .running) : IssueCase s (.stop s)
  | halts (hr : s.runState = .running) (h : s.n ≤ s.pc.toNat + 1) : IssueCase s (.stop s.halt)
  | limit (hr : s.runState = .running) (hn : s.pc.toNat + 1 < s.n) (h : s.config.stepCap = some s.steps.toNat) :
      IssueCase s (.stop (s.raise .stepLimit))
  | invalid (op arg : Word) (r : InvalidReason) (hn : s.pc.toNat + 1 < s.n) (hp : s.AtPair op arg)
      (h : decode op arg = .error r) : IssueCase s (.stop (s.raise (.invalidInstruction r)))
  | run (op arg : Word) (i : Instr) (hn : s.pc.toNat + 1 < s.n) (hp : s.AtPair op arg) (h : decode op arg = .ok i) :
      IssueCase s (.run i)

theorem State.issue_case (s : State) : IssueCase s s.issue := by
  unfold State.issue
  by_cases hr : s.runState = .running
  · rw [if_pos (by simpa using hr)]
    by_cases hn : s.n ≤ s.pc.toNat + 1
    · rw [if_pos (State.haltTest_eq_true.mpr hn)]
      exact .halts hr hn
    · rw [if_neg (fun h => hn (State.haltTest_eq_true.mp h))]
      by_cases hl : s.config.stepCap = some s.steps.toNat
      · rw [if_pos (State.stepLimitReached_eq_true.mpr hl)]
        exact .limit hr (by omega) hl
      · rw [if_neg (fun h => hl (State.stepLimitReached_eq_true.mp h))]
        obtain ⟨op, arg, hf⟩ := State.fetchPair_isSome (s := s) (by omega)
        have hp : s.AtPair op arg := ⟨hr, hl, State.fetchPair_eq_some.mp hf⟩
        unfold State.decodeAtPc
        rw [hf]
        cases hd : decode op arg with
        | ok i => simpa only [hd] using IssueCase.run op arg i (by omega) hp hd
        | error r => simpa only [hd] using IssueCase.invalid op arg r (by omega) hp hd
  · rw [if_neg (by simpa using hr)]
    exact .stopped hr

/-- Everything a step can do (40_execution_loop.md R80). -/
inductive StepCase (s : State) : State → Prop where
  | stopped (h : s.runState ≠ .running) : StepCase s s
  | halts (hr : s.runState = .running) (h : s.n ≤ s.pc.toNat + 1) : StepCase s s.halt
  | limit (hr : s.runState = .running) (hn : s.pc.toNat + 1 < s.n) (h : s.config.stepCap = some s.steps.toNat) :
      StepCase s (s.raise .stepLimit)
  | invalid (op arg : Word) (r : InvalidReason) (hn : s.pc.toNat + 1 < s.n) (hp : s.AtPair op arg)
      (h : decode op arg = .error r) : StepCase s (s.raise (.invalidInstruction r))
  | ran (op arg : Word) (i : Instr) (t : State) (hn : s.pc.toNat + 1 < s.n) (hp : s.AtPair op arg)
      (h : decode op arg = .ok i) (he : exec i s = .next t) (hr : t.runState = .running) : StepCase s t.countStep
  | faulted (op arg : Word) (i : Instr) (t : State) (hn : s.pc.toNat + 1 < s.n) (hp : s.AtPair op arg)
      (h : decode op arg = .ok i) (he : exec i s = .next t) (hr : t.runState ≠ .running) : StepCase s t

/-- A retired instruction that left CORE running is counted. -/
theorem retire_running {t : State} (h : t.runState = .running) : retire (.next t) = .next t.countStep := by
  simp [retire, h]

/-- A retired instruction that ended the run in a fault is not counted. -/
theorem retire_stopped {t : State} (h : t.runState ≠ .running) : retire (.next t) = .next t := by
  simp [retire, h]

theorem step_of_issue_run {s : State} {i : Instr} (h : s.issue = .run i) : step s = retire (exec i s) := by
  simp [step, h]

theorem step_of_issue_stop {s t : State} (h : s.issue = .stop t) : step s = .next t := by
  simp [step, h]

/-- The pair at pc decides the front of the step. -/
theorem State.AtPair.issue_eq {s : State} {op arg : Word} (hp : s.AtPair op arg) : s.issue = s.decodeAtPc := by
  obtain ⟨hr, hl, -, h1⟩ := hp
  have hn := State.lt_n_of_imemRead h1
  unfold State.issue
  rw [if_pos (by simpa using hr), if_neg (fun h => absurd (State.haltTest_eq_true.mp h) (by omega)),
    if_neg (fun h => hl (State.stepLimitReached_eq_true.mp h))]

theorem State.AtPair.step_of_ok {s : State} {op arg : Word} {i : Instr} (hp : s.AtPair op arg)
    (h : decode op arg = .ok i) : step s = retire (exec i s) :=
  step_of_issue_run (by simp [hp.issue_eq, State.decodeAtPc, State.fetchPair_eq_some.mpr hp.2.2, h])

theorem State.AtPair.step_of_error {s : State} {op arg : Word} {r : InvalidReason} (hp : s.AtPair op arg)
    (h : decode op arg = .error r) : step s = .next (s.raise (.invalidInstruction r)) :=
  step_of_issue_stop (by simp [hp.issue_eq, State.decodeAtPc, State.fetchPair_eq_some.mpr hp.2.2, h])

/-- The state a step answers, and why. -/
theorem step_case (s : State) : ∃ t, step s = .next t ∧ StepCase s t := by
  have hc := s.issue_case
  cases hi : s.issue with
  | stop t =>
    refine ⟨t, step_of_issue_stop hi, ?_⟩
    rw [hi] at hc
    cases hc with
    | stopped h => exact .stopped h
    | halts hr h => exact .halts hr h
    | limit hr hn h => exact .limit hr hn h
    | invalid op arg r hn hp h => exact .invalid op arg r hn hp h
  | run i =>
    rw [hi] at hc
    cases hc with
    | run op arg _ hn hp h =>
      obtain ⟨t, he, -⟩ := exec_effect i s
      by_cases hr : t.runState = .running
      · exact ⟨_, (step_of_issue_run hi).trans (by rw [he, retire_running hr]), .ran op arg i t hn hp h he hr⟩
      · exact ⟨_, (step_of_issue_run hi).trans (by rw [he, retire_stopped hr]), .faulted op arg i t hn hp h he hr⟩
  | outside => rw [hi] at hc; cases hc

theorem step_next_case {s t : State} (h : step s = .next t) : StepCase s t := by
  obtain ⟨u, hu, hc⟩ := step_case s
  rw [h] at hu
  cases hu
  exact hc

/-- One more step of a run. -/
theorem runSteps_succ (n : Nat) (s t : State) (h : step s = .next t) : runSteps (n + 1) s = runSteps n t := by
  have h' : Sys2Proof.core.step s = .next t := h
  simp only [runSteps, Host.Core.run, h']
  rfl

@[simp] theorem runSteps_zero (s : State) : runSteps 0 s = .next s := rfl

end Sys2Proof.Machine
end

