-- ==== Sys2Proof/Laws/Fetch.lean ====
section
/-! SUPPORT. A pair placed at pc is the pair the next step fetches, and decoding it decides that step. -/

namespace Sys2Proof.Machine

theorem placePair_front_length (imem : List Word) (index : Nat) :
    ((imem ++ List.replicate (index - imem.length) 0#64).take index).length = index := by
  simp only [List.length_take, List.length_append, List.length_replicate]
  omega

theorem placePair_opcode (imem : List Word) (index : Nat) (op arg : Word) :
    (placePair imem index op arg)[index]? = some op := by
  have h := placePair_front_length imem index
  unfold placePair
  rw [List.getElem?_append_right (Nat.le_of_eq h), h, Nat.sub_self]
  rfl

theorem placePair_operand (imem : List Word) (index : Nat) (op arg : Word) :
    (placePair imem index op arg)[index + 1]? = some arg := by
  have h := placePair_front_length imem index
  unfold placePair
  rw [List.getElem?_append_right (by omega), h, Nat.add_sub_cancel_left]
  rfl

/-- `State.withPair` puts the pair at pc of a running CORE under no reached cap, whatever the state was. -/
theorem State.withPair_atPair (s : State) (op arg : Word) : (s.withPair op arg).AtPair op arg := by
  refine ⟨runState_ofCode_statusOf _ _, ?_, placePair_opcode _ _ _ _, placePair_operand _ _ _ _⟩
  show (if s.stepLimitReached then { s.config with stepCap := none } else s.config).stepCap ≠ some s.steps.toNat
  cases h : s.stepLimitReached with
  | true => simp
  | false =>
    simp only [Bool.false_eq_true, if_false]
    exact fun hc => absurd (State.stepLimitReached_eq_true.mpr hc) (by simp [h])

/-- The next step after `State.withFetchWord` runs the instruction the table word decodes to. -/
theorem State.step_withFetchWord (s : State) (nbits w : Nat) (i : Instr) (h : decodeTableWord nbits w = some i) :
    step (s.withFetchWord nbits w) = retire (exec i (s.withFetchWord nbits w)) := by
  unfold decodeTableWord at h
  split at h
  · rename_i j hj
    obtain rfl := Option.some.inj h
    exact (s.withPair_atPair _ _).step_of_ok hj
  · cases h

end Sys2Proof.Machine
end

