-- ==== Sys2Proof/Laws/PerInstr.lean ====
section
/-! SUPPORT. Families of facts about each instruction as syntax, one lemma per constructor. -/

namespace Sys2Proof.Laws.EncodesLegalWords

/-- Both words of an instruction are in the legal domain 0 to 7 (30_encoding.md R61). -/
def Statement (i : Instr) : Prop := (encode i).1.toNat ≤ 7 ∧ (encode i).2.toNat ≤ 7

theorem wordOf_le (k : Digit) : (wordOf k).toNat ≤ 7 := by
  have := k.isLt
  simp only [wordOf_toNat]
  omega

theorem adv (k : Combo) : Statement (.adv k) := ⟨by simp [encode], wordOf_le k.field⟩
theorem bxl (k : Digit) : Statement (.bxl k) := ⟨by simp [encode], wordOf_le k⟩
theorem bst (k : Combo) : Statement (.bst k) := ⟨by simp [encode], wordOf_le k.field⟩
theorem jnz (k : Digit) : Statement (.jnz k) := ⟨by simp [encode], wordOf_le k⟩
theorem bxc (k : Digit) : Statement (.bxc k) := ⟨by simp [encode], wordOf_le k⟩
theorem out (k : Combo) : Statement (.out k) := ⟨by simp [encode], wordOf_le k.field⟩
theorem bdv (k : Combo) : Statement (.bdv k) := ⟨by simp [encode], wordOf_le k.field⟩
theorem cdv (k : Combo) : Statement (.cdv k) := ⟨by simp [encode], wordOf_le k.field⟩

end Sys2Proof.Laws.EncodesLegalWords
end

