-- ==== Sys2Proof/Tests/Slice0.lean ====
section
/-! SUPPORT. Tests of one step, decode or host move each, with their expected results from 95_test_vectors.md or from
the rules by hand, and for every statement with hypotheses a state and operands that meet them. -/

namespace Sys2Proof.Tests

open Sys2Proof Sys2Proof.Machine

/-- A running state right after a Launch of these registers and this program (70_reset_and_hazards.md R191). -/
def launchedWith (a b c : Word) (prog : List Word) : State := State.reset.launched a b c prog

/-- The state an outcome answers, if it answers one. -/
def answered (o : Host.Outcome State Fault Refusal) : Option State :=
  match o with
  | .next t => some t
  | .fault _ => none
  | .refused _ => none

/-- 2^64 - 1, the M of 95_test_vectors.md. -/
def m : Word := 0xFFFFFFFFFFFFFFFF#64

/-- A parameter choice with small capacities. -/
def smallCaps : Config := { imemCap := 8, outCap := some 2, stepCap := some 5 }

/-! ### WellFormed: each check refuses an ill-formed term (30_encoding.md R68), and operand 7 is legal elsewhere -/

theorem test_adv_reserved_refused : (Instr.adv .reserved).wellFormed = false := by decide
theorem test_bst_reserved_refused : (Instr.bst .reserved).wellFormed = false := by decide
theorem test_out_reserved_refused : (Instr.out .reserved).wellFormed = false := by decide
theorem test_bdv_reserved_refused : (Instr.bdv .reserved).wellFormed = false := by decide
theorem test_cdv_reserved_refused : (Instr.cdv .reserved).wellFormed = false := by decide
theorem test_literal_7_accepted :
    (Instr.bxl 7#3).wellFormed = true ∧ (Instr.jnz 7#3).wellFormed = true ∧ (Instr.bxc 7#3).wellFormed = true := by
  decide

/-! ### Decode: one pair written out from the opcode map for each opcode (30_encoding.md R67), and the table's numbers -/

theorem test_decode_adv : decode 0b000#64 0b011#64 = .ok (.adv (.lit 3#2)) := by decide
theorem test_decode_bxl : decode 0b001#64 0b101#64 = .ok (.bxl 5#3) := by decide
theorem test_decode_bst : decode 0b010#64 0b110#64 = .ok (.bst (.reg .c)) := by decide
theorem test_decode_jnz : decode 0b011#64 0b100#64 = .ok (.jnz 4#3) := by decide
theorem test_decode_bxc : decode 0b100#64 0b111#64 = .ok (.bxc 7#3) := by decide
theorem test_decode_out : decode 0b101#64 0b100#64 = .ok (.out (.reg .a)) := by decide
theorem test_decode_bdv : decode 0b110#64 0b101#64 = .ok (.bdv (.reg .b)) := by decide
theorem test_decode_cdv : decode 0b111#64 0b000#64 = .ok (.cdv (.lit 0#2)) := by decide
/-- Vectors F1, F2, F3, F5 and S19. -/
theorem test_decode_rejections :
    decode 8#64 0#64 = .error .badOpcode ∧ decode m 0#64 = .error .badOpcode ∧ decode 0#64 9#64 = .error .badOperand ∧
      decode 9#64 7#64 = .error .badOpcode ∧ decode 7#64 7#64 = .error .reservedCombo := by decide
/-- insn6 of jnz 5 is 011101 (R62, R67), of adv 7 is 000111, and 1000000 is an opcode word of 8. -/
theorem test_table_word :
    decodeTableWord 8 0b011101 = some (.jnz 5#3) ∧ decodeTableWord 8 0b000111 = none ∧
      decodeTableWord 8 0b1000000 = none := by decide
theorem test_fetch_word_runs_first :
    (answered (step (State.reset.withFetchWord 8 0b001111))).map State.b = some 7#64 := by decide

/-! ### The instructions, one step each (95_test_vectors.md section 2) -/

/-- S1. -/
theorem test_adv_3 : (answered (step (launchedWith 2024#64 0#64 0#64 [0#64, 3#64]))).map (fun t => (t.a, t.pc)) =
    some (253#64, 2#64) := by decide
/-- S5: an amount of 64 gives 0. -/
theorem test_adv_64 : (answered (step (launchedWith m 64#64 0#64 [0#64, 5#64]))).map (fun t => (t.a, t.b)) =
    some (0#64, 64#64) := by decide
/-- S10: the old B is the amount. -/
theorem test_bdv_old_b : (answered (step (launchedWith 2024#64 7#64 0#64 [6#64, 5#64]))).map (fun t => (t.a, t.b)) =
    some (2024#64, 15#64) := by decide
/-- S13: an amount of 65 gives 0. -/
theorem test_bdv_65 : (answered (step (launchedWith m 0#64 65#64 [6#64, 6#64]))).map State.b = some 0#64 := by decide
/-- S15: the old C is the amount. -/
theorem test_cdv_old_c : (answered (step (launchedWith 2024#64 0#64 1#64 [7#64, 6#64]))).map State.c =
    some 1012#64 := by decide
/-- S18. -/
theorem test_cdv_3 : (answered (step (launchedWith m 3#64 0#64 [7#64, 3#64]))).map State.c =
    some 2305843009213693951#64 := by decide
/-- X1. -/
theorem test_bxl_7 : (answered (step (launchedWith 0#64 29#64 0#64 [1#64, 7#64]))).map State.b = some 26#64 := by decide
/-- X3: only bits 2 to 0 change. -/
theorem test_bxl_high_bits : (answered (step (launchedWith 0#64 m 0#64 [1#64, 7#64]))).map State.b =
    some 18446744073709551608#64 := by decide
/-- X6. -/
theorem test_bst_a : (answered (step (launchedWith m 0#64 0#64 [2#64, 4#64]))).map State.b = some 7#64 := by decide
/-- X8: the old B is read. -/
theorem test_bst_old_b : (answered (step (launchedWith 0#64 13#64 0#64 [2#64, 5#64]))).map State.b = some 5#64 := by
  decide
/-- X10. -/
theorem test_bxc_0 : (answered (step (launchedWith 0#64 2024#64 43690#64 [4#64, 0#64]))).map State.b =
    some 44354#64 := by decide
/-- X11: operand 7 is ignored. -/
theorem test_bxc_7 : (answered (step (launchedWith 0#64 2024#64 43690#64 [4#64, 7#64]))).map (fun t => (t.b, t.c)) =
    some (44354#64, 43690#64) := by decide
/-- J1: not taken. -/
theorem test_jnz_zero : (answered (step (launchedWith 0#64 0#64 0#64 [3#64, 0#64]))).map (fun t => (t.pc, t.steps)) =
    some (2#64, 1#64) := by decide
/-- J4: the whole of A is tested, and an odd target is taken as it is. -/
theorem test_jnz_high_bit : (answered (step (launchedWith 0x8000000000000000#64 0#64 0#64 [3#64, 3#64]))).map State.pc =
    some 3#64 := by decide
/-- O3. -/
theorem test_out_mod8 : (answered (step (launchedWith 2024#64 0#64 0#64 [5#64, 4#64]))).map State.out =
    some [0#3] := by decide
/-- O5, on a buffer that holds an entry: the new one is last. -/
theorem test_out_appends_last :
    (answered (step { launchedWith 0#64 0#64 m [5#64, 6#64] with out := [2#3] })).map State.out = some [2#3, 7#3] := by
  decide

/-! ### Faults, the halt and the caps (95_test_vectors.md section 2.5) -/

/-- S9: STATUS is FAULTED with CAUSE 3, 0b01111, and A, pc and STEPS are as before. -/
theorem test_reserved_faults :
    answered (step (launchedWith 2024#64 0#64 0#64 [0#64, 7#64])) =
      some { launchedWith 2024#64 0#64 0#64 [0#64, 7#64] with status := 0b00001111#8 } := by decide
/-- X14: bxc with operand word 8 is BadOperand, 0b01011. -/
theorem test_bad_operand_faults :
    (answered (step (launchedWith 0#64 0#64 0#64 [4#64, 8#64]))).map State.status = some 0b00001011#8 := by decide
/-- O7's last step: the buffer is full, CAUSE 4, 0b10011. -/
theorem test_overflow_faults :
    (answered (step { launchedWith 0#64 0#64 0#64 [5#64, 2#64] with out := [0#3, 1#3], config := smallCaps })).map
      (fun t => (t.status, t.out, t.pc)) = some (0b00010011#8, [0#3, 1#3], 0#64) := by decide
/-- F7: StepLimit before decode, CAUSE 5, 0b10111. -/
theorem test_step_limit_first :
    (answered (step { launchedWith 0#64 0#64 0#64 [8#64, 0#64] with
      config := { smallCaps with stepCap := some 0 } })).map State.status = some 0b00010111#8 := by decide
/-- F8's last step: the halt comes before StepLimit; HALTED with no cause is 0b00010. -/
theorem test_halt_before_step_limit :
    (answered (step { launchedWith 0#64 0#64 0#64 [5#64, 1#64] with
      pc := 2#64, steps := 1#64, config := { smallCaps with stepCap := some 1 } })).map State.status =
      some 0b00000010#8 := by decide
/-- E9: a lone word is never decoded, and the run halts at pc 0. -/
theorem test_dangling_word_halts :
    (answered (step (launchedWith 0#64 0#64 0#64 [9#64]))).map (fun t => (t.status, t.pc)) =
      some (0b00000010#8, 0#64) := by decide
/-- R31: STEPS saturates. -/
theorem test_steps_saturate :
    (answered (step { launchedWith 0#64 0#64 0#64 [1#64, 0#64] with steps := m })).map State.steps = some m := by decide

/-- Log entry 16, from R82 and R88: with STEP_CAP = 2^64 and STEPS saturated the step runs its instruction. -/
theorem test_step_cap_beyond_steps :
    (answered (step { launchedWith 1#64 0#64 0#64 [3#64, 0#64] with
      steps := m, config := { smallCaps with stepCap := some (2 ^ 64) } })).map (fun t => (t.status, t.steps)) =
      some (0b00000001#8, m) := by decide

/-! ### Reset and the host -/

/-- R34: the state after reset takes no step, and a read of A is refused. -/
theorem test_reset_idle : answered (step State.reset) = some State.reset ∧
    State.reset.hostRead (.reg .a) = .error .readOfNoValue := by decide
/-- R192. -/
theorem test_launch_refused_running :
    answered ((launchedWith 0#64 0#64 0#64 []).launch 1#64 2#64 3#64 []) = none := by decide
/-- R32: index 4 is STATUS, readable while running, and index 7 names nothing. -/
theorem test_host_map :
    (launchedWith 9#64 0#64 0#64 []).hostReadAt 4 = .ok 1#64 ∧
    (launchedWith 9#64 0#64 0#64 []).hostReadAt 0 = .error .readWhileRunning ∧
    (launchedWith 9#64 0#64 0#64 []).hostReadAt 7 = .error .noSuchHostRegister := by decide
/-- F9's result is Err(3). -/
theorem test_result_of_fault :
    { launchedWith 0#64 0#64 0#64 [5#64, 1#64, 2#64, 7#64] with out := [1#3], status := 0b00001111#8 }.result =
      some (.err 3#3) := by decide

/-! ### Witnesses: states and operands that meet the hypotheses of each statement -/

/-- A running state under a cap not reached, at this pair. -/
def atPair (op arg : Word) : State := { launchedWith 1#64 2#64 3#64 [op, arg] with config := smallCaps }

theorem atPair_atPair (op arg : Word) : (atPair op arg).AtPair op arg := by
  refine ⟨runState_ofCode_statusOf _ _, ?_, rfl, rfl⟩
  show some 5 ≠ some 0
  decide

/-- DecodeOfEncode, and the forward and backward premises of DecodeAcceptsOnlyOwnWords. -/
theorem test_meets_decode_encode :
    (Instr.adv (.reg .c)).wellFormed = true ∧ encode (.adv (.reg .c)) = (0#64, 6#64) ∧
      decode 0#64 6#64 = .ok (.adv (.reg .c)) := by decide

/-- DecodeTestsInOrder: each clause, at the edges of its ranges. -/
theorem test_meets_decode_tests_in_order :
    7 < (8#64).toNat ∧ (7#64).toNat ≤ 7 ∧ 7 < (8#64).toNat ∧ comboOpcode 7#64 = true ∧ comboOpcode 0#64 = true ∧
      (7#64).toNat = 7 ∧ ¬ (comboOpcode 7#64 = true ∧ (6#64).toNat = 7) ∧
      ¬ (comboOpcode 1#64 = true ∧ (7#64).toNat = 7) := by decide

/-- ShiftLaw: the amounts where its clauses meet. -/
theorem test_meets_shift_law :
    (63#64).toNat ≤ 63 ∧ 64 ≤ (64#64).toNat ∧ shr m 63#64 = 1#64 ∧ shr m 64#64 = 0#64 := by decide

/-- ComboOperandValues, and the operand-7 clause of the five combo instructions. -/
theorem test_meets_reserved_operand :
    comboOpcode 0#64 = true ∧ comboOpcode 2#64 = true ∧ comboOpcode 5#64 = true ∧ comboOpcode 6#64 = true ∧
      comboOpcode 7#64 = true ∧ (atPair 5#64 7#64).AtPair 5#64 7#64 :=
  ⟨by decide, by decide, by decide, by decide, by decide, atPair_atPair _ _⟩

/-- ReservedFormsRaise. -/
theorem test_meets_reserved_forms : (Instr.out .reserved).wellFormed = false := by decide

/-- The combo-value premise of adv, bdv, cdv, bst and out, for a literal and for each register. -/
theorem test_meets_combo_value :
    (atPair 0#64 3#64).comboValue (.lit 3#2) = some 3#64 ∧ (atPair 0#64 4#64).comboValue (.reg .a) = some 1#64 ∧
      (atPair 0#64 5#64).comboValue (.reg .b) = some 2#64 ∧ (atPair 0#64 6#64).comboValue (.reg .c) = some 3#64 ∧
      (6#3 : Digit) ≠ 7#3 := by decide

/-- The default advance: its premise at pc 0 and at the largest pc it covers. -/
theorem test_meets_advance :
    (atPair 0#64 3#64).pc.toNat + 2 < 2 ^ 64 ∧ (0xFFFFFFFFFFFFFFFD#64).toNat + 2 < 2 ^ 64 := by decide

/-- BxcXorsCIntoB's operand clause. -/
theorem test_meets_bxc_operand_above_7 : 7 < (8#64).toNat := by decide

/-- JnzJumpsWhenANotZero: both clauses. -/
theorem test_meets_jnz : (atPair 3#64 0#64).a.toNat ≠ 0 ∧ State.reset.a.toNat = 0 := by decide

/-- OutAppendsValueMod8: room for one more entry, none left, and an unbounded buffer. -/
theorem test_meets_out_capacity :
    { atPair 5#64 1#64 with out := [0#3] }.config.outCap ≠ some { atPair 5#64 1#64 with out := [0#3] }.outLen ∧
      { atPair 5#64 1#64 with out := [0#3, 1#3] }.config.outCap =
        some { atPair 5#64 1#64 with out := [0#3, 1#3] }.outLen ∧
      State.reset.config.outCap ≠ some State.reset.outLen := by decide

/-- RegisterWriters and the two clauses of UnreadRegisterDoesNotMatter: bxl does not write A, adv 3 neither reads nor
writes C, and bst 3 writes B without reading it. -/
theorem test_meets_read_and_write_sets :
    (Instr.bxl 1#3).writes .a = false ∧ (answered (exec (.bxl 1#3) (atPair 1#64 1#64))).isSome = true ∧
      (Instr.adv (.lit 3#2)).reads .c = false ∧ (Instr.adv (.lit 3#2)).writes .c = false ∧
      (answered (exec (.adv (.lit 3#2)) (atPair 0#64 3#64))).isSome = true ∧ (Instr.bst (.lit 3#2)).reads .b = false ∧
      (Instr.bst (.lit 3#2)).writes .b = true ∧ (Instr.bst (.lit 3#2)).wellFormed = true ∧
      (answered (exec (.bst (.lit 3#2)) (atPair 2#64 3#64))).isSome = true := by decide

/-- OutWrittenOnlyByAppend: an out that answers a next state, and other entries of the same number. -/
theorem test_meets_out_append :
    (answered (exec (.out (.lit 1#2)) { atPair 5#64 1#64 with out := [4#3] })).isSome = true ∧
      ([6#3] : List Digit).length = { atPair 5#64 1#64 with out := [4#3] }.outLen ∧
      { atPair 5#64 1#64 with out := [4#3] }.runState = .running ∧
      (answered (step { atPair 5#64 1#64 with out := [4#3] })).isSome = true := by decide

/-- OutEntriesPersist and ImemUnchangedDuringRun: a run of two steps, and a running state that steps. -/
theorem test_meets_run :
    (answered (runSteps 2 (atPair 5#64 1#64))).isSome = true ∧ (atPair 5#64 1#64).runState = .running ∧
      (answered (step (atPair 5#64 1#64))).isSome = true ∧
      (answered (exec (.out (.lit 1#2)) (atPair 5#64 1#64))).isSome = true := by decide

/-- UnfetchedWordDoesNotMatter: the word after the pair. -/
theorem test_meets_unfetched_word :
    2 ≠ (launchedWith 0#64 0#64 0#64 [1#64, 1#64, 9#64]).pc.toNat ∧
      2 ≠ (launchedWith 0#64 0#64 0#64 [1#64, 1#64, 9#64]).pc.toNat + 1 ∧
      (answered (step (launchedWith 0#64 0#64 0#64 [1#64, 1#64, 9#64]))).isSome = true := by decide

/-- StepRunsDecodedInstruction: an instruction that leaves CORE running, and an out that ends the run. -/
theorem test_meets_step_runs :
    (atPair 1#64 7#64).AtPair 1#64 7#64 ∧ decode 1#64 7#64 = .ok (.bxl 7#3) ∧
      (answered (exec (.bxl 7#3) (atPair 1#64 7#64))).map State.runState = some .running ∧
      decode 5#64 1#64 = .ok (.out (.lit 1#2)) ∧
      (answered (exec (.out (.lit 1#2)) { atPair 5#64 1#64 with out := [0#3, 0#3] })).map State.runState =
        some .faulted :=
  ⟨atPair_atPair _ _, by decide, by decide, by decide, by decide⟩

/-- FetchAtAnyIndex and HaltsWhenNoOperandWord: an odd pc with a word after it, and the same pc with none. -/
theorem test_meets_fetch_and_halt :
    { launchedWith 0#64 0#64 0#64 [0#64, 1#64, 1#64] with pc := 1#64 }.pc.toNat + 1 <
        { launchedWith 0#64 0#64 0#64 [0#64, 1#64, 1#64] with pc := 1#64 }.n ∧
      { launchedWith 0#64 0#64 0#64 [0#64, 1#64] with pc := 1#64 }.n ≤
        { launchedWith 0#64 0#64 0#64 [0#64, 1#64] with pc := 1#64 }.pc.toNat + 1 ∧
      { launchedWith 0#64 0#64 0#64 [0#64, 1#64] with pc := 1#64 }.runState = .running := by decide

/-- OpcodeAbove7Faults and OperandAbove7Faults, at 8. -/
theorem test_meets_above_7 :
    (atPair 8#64 0#64).AtPair 8#64 0#64 ∧ 7 < (8#64).toNat ∧ (atPair 7#64 8#64).AtPair 7#64 8#64 ∧ (7#64).toNat ≤ 7 :=
  ⟨atPair_atPair _ _, by decide, atPair_atPair _ _, by decide⟩

/-- Operand7FaultsInComboOnly: a combo opcode, and a literal one. -/
theorem test_meets_operand_7 :
    (atPair 7#64 7#64).AtPair 7#64 7#64 ∧ comboOpcode 7#64 = true ∧ (atPair 4#64 7#64).AtPair 4#64 7#64 ∧
      (4#64).toNat ≤ 7 ∧ comboOpcode 4#64 = false :=
  ⟨atPair_atPair _ _, by decide, atPair_atPair _ _, by decide, by decide⟩

/-- FullBufferFaultsOut: a full buffer at out 6, and a running state with no OUT_CAP whose step faults. -/
theorem test_meets_full_buffer :
    { atPair 5#64 6#64 with out := [0#3, 1#3] }.AtPair 5#64 6#64 ∧ (6#64).toNat ≤ 6 ∧
      { atPair 5#64 6#64 with out := [0#3, 1#3] }.config.outCap =
        some { atPair 5#64 6#64 with out := [0#3, 1#3] }.outLen ∧
      (launchedWith 0#64 0#64 0#64 [5#64, 7#64]).runState = .running ∧
      (launchedWith 0#64 0#64 0#64 [5#64, 7#64]).config.outCap = none ∧
      (answered (step (launchedWith 0#64 0#64 0#64 [5#64, 7#64]))).map State.runState = some .faulted :=
  ⟨atPair_atPair _ _, by decide, by decide, by decide, by decide, by decide⟩

/-- StepCapFaults: a cap reached before a pair, and a running state with no STEP_CAP whose step faults. -/
theorem test_meets_step_cap :
    { atPair 1#64 1#64 with steps := 5#64 }.runState = .running ∧
      { atPair 1#64 1#64 with steps := 5#64 }.pc.toNat + 1 < { atPair 1#64 1#64 with steps := 5#64 }.n ∧
      { atPair 1#64 1#64 with steps := 5#64 }.config.stepCap =
        some { atPair 1#64 1#64 with steps := 5#64 }.steps.toNat ∧
      (launchedWith 0#64 0#64 0#64 [8#64, 0#64]).config.stepCap = none ∧
      (answered (step (launchedWith 0#64 0#64 0#64 [8#64, 0#64]))).map State.runState = some .faulted := by decide

/-- FaultPriority: a state for each of its seven outcomes answers a next state. -/
theorem test_meets_fault_priority :
    (answered (step (atPair 1#64 1#64))).map State.status = some 0b00000001#8 ∧
      (answered (step { atPair 1#64 1#64 with pc := 1#64 })).map State.status = some 0b00000010#8 ∧
      (answered (step { atPair 8#64 9#64 with steps := 5#64 })).map State.status = some 0b00010111#8 ∧
      (answered (step (atPair 8#64 9#64))).map State.status = some 0b00000111#8 ∧
      (answered (step (atPair 7#64 9#64))).map State.status = some 0b00001011#8 ∧
      (answered (step { atPair 5#64 7#64 with out := [0#3, 0#3] })).map State.status = some 0b00001111#8 ∧
      (answered (step { atPair 5#64 6#64 with out := [0#3, 0#3] })).map State.status = some 0b00010011#8 := by decide

/-- FaultsArePrecise and StepsCountsExecutedInstructions: a step that faults, and one that goes on. -/
theorem test_meets_precise_fault :
    (atPair 8#64 0#64).runState = .running ∧
      (answered (step (atPair 8#64 0#64))).map State.runState = some .faulted ∧
      (answered (step (atPair 1#64 0#64))).map State.runState = some .running := by decide

/-- PcChangesOnlyAsListed: a Launch that is accepted, and running states of the invariant whose step is a taken jnz, an
advance, and a halt. -/
theorem test_meets_pc_changes :
    (answered (State.reset.launch 1#64 0#64 0#64 [3#64, 7#64])).map State.pc = some 0#64 ∧
      (atPair 3#64 7#64).Inv ∧ (answered (step (atPair 3#64 7#64))).map State.pc = some 7#64 ∧
      (atPair 1#64 7#64).Inv ∧ (answered (step (atPair 1#64 7#64))).map State.pc = some 2#64 ∧
      { atPair 1#64 7#64 with pc := 7#64 }.Inv ∧
      (answered (step { atPair 1#64 7#64 with pc := 7#64 })).map State.pc = some 7#64 := by decide

/-- JumpPastEndHaltsNext: jnz 1 in a stream of two words, the least target past the end. -/
theorem test_meets_jump_past_end :
    (atPair 3#64 1#64).AtPair 3#64 (zext64 1#3) ∧ (atPair 3#64 1#64).a ≠ 0#64 ∧
      (atPair 3#64 1#64).n ≤ (1#3).toNat + 1 :=
  ⟨atPair_atPair _ _, by decide, by decide⟩

/-- JumpToItselfNeverStops: program P6, which a Launch starts. -/
theorem test_meets_jump_to_itself :
    (launchedWith 1#64 0#64 0#64 [3#64, 0#64]).AtPair 3#64 (zext64 0#3) ∧
      (launchedWith 1#64 0#64 0#64 [3#64, 0#64]).pc = zext64 0#3 ∧
      (launchedWith 1#64 0#64 0#64 [3#64, 0#64]).a ≠ 0#64 ∧
      (launchedWith 1#64 0#64 0#64 [3#64, 0#64]).config.stepCap = none :=
  ⟨⟨by decide, by decide, rfl, rfl⟩, by decide, by decide, rfl⟩

/-- StoppedStatesStay: the three states in which CORE takes no step. -/
theorem test_meets_stopped :
    State.reset.runState = .idle ∧ State.reset.halt.runState = .halted ∧
      (State.reset.raise .stepLimit).runState = .faulted := by decide

/-- StepKeepsInvariant and HostMovesKeepInvariant: a state of the invariant that steps, and one that takes a Launch. -/
theorem test_meets_invariant :
    (atPair 5#64 4#64).Inv ∧ (answered (step (atPair 5#64 4#64))).isSome = true ∧
      (atPair 5#64 4#64).halt.Inv ∧ (answered ((atPair 5#64 4#64).halt.launch 1#64 2#64 3#64 [0#64])).isSome = true := by
  decide

/-- ReachedStatesMeetInvariant: a machine of small capacities after power-on. -/
theorem test_meets_reached : Reached { State.reset with config := smallCaps } := .powerOn smallCaps (by decide)

/-- CappedRunAgreesWithUncapped: two steps under a cap of two. -/
theorem test_meets_capped_run :
    (launchedWith 0#64 0#64 0#64 [5#64, 1#64, 5#64, 2#64]).config.stepCap = none ∧
      (launchedWith 0#64 0#64 0#64 [5#64, 1#64, 5#64, 2#64]).steps.toNat + 2 ≤ 2 ∧
      (answered (runSteps 2 (launchedWith 0#64 0#64 0#64 [5#64, 1#64, 5#64, 2#64]))).isSome = true := by decide

/-- LaunchStartsRun, LaunchRefusals and RunsAreIndependent: programs of IMEM_CAP words and of one more, from a stopped
machine and a running one of the same parameters. -/
theorem test_meets_launch :
    (atPair 1#64 1#64).halt.runState ≠ .running ∧
      (List.replicate 8 (0#64 : Word)).length ≤ (atPair 1#64 1#64).halt.config.imemCap ∧
      (atPair 1#64 1#64).halt.config.imemCap < (List.replicate 9 (0#64 : Word)).length ∧
      (atPair 1#64 1#64).runState = .running ∧
      (atPair 1#64 1#64).halt.config = ((atPair 5#64 2#64).raise .outputOverflow).config ∧
      ((atPair 5#64 2#64).raise .outputOverflow).runState ≠ .running ∧
      (answered ((atPair 1#64 1#64).halt.launch 1#64 2#64 3#64 [0#64])).isSome = true := by decide

/-- HostReads: each of its clauses has a state, with OUT[0] held and OUT[1] past the end. -/
theorem test_meets_host_reads :
    (atPair 1#64 1#64).runState = .running ∧ (HostReg.pc ≠ HostReg.status) ∧
      { (atPair 1#64 1#64).halt with out := [6#3] }.runState = .halted ∧
      { (atPair 1#64 1#64).halt with out := [6#3] }.outLen < 2 ^ 64 ∧
      { (atPair 1#64 1#64).halt with out := [6#3] }.outLen ≤ 1 ∧
      { (atPair 1#64 1#64).halt with out := [6#3] }.outEntry 0 = some 6#3 ∧
      ((atPair 1#64 1#64).raise .stepLimit).runState = .faulted ∧ State.reset.runState = .idle := by decide

/-- ResultOfRun: each of its clauses has a state. -/
theorem test_meets_result :
    { (atPair 1#64 1#64).halt with out := [6#3] }.runState = .halted ∧
      { (atPair 1#64 1#64).halt with out := [6#3] }.outEntry 0 = some 6#3 ∧
      ((atPair 1#64 1#64).raise .stepLimit).runState = .faulted ∧ (atPair 1#64 1#64).runState = .running ∧
      State.reset.runState = .idle := by decide

end Sys2Proof.Tests
end

section
/-! # PROOFS. How pc changes (10_state.md R25) -/

namespace Sys2Proof

/-! ### The words of a decoded instruction -/

/-- The decoder accepts a pair only if the pair is what the encoder gives (30_encoding.md R66, R67). -/
theorem encode_of_decode_ok {op arg : Word} {i : Instr} (h : decode op arg = .ok i) : encode i = (op, arg) := by
  unfold decode at h
  cases ho : opcodeOf op with
  | none => simp [ho] at h
  | some o =>
    cases hk : operandOf arg with
    | none => simp [ho, hk] at h
    | some k =>
      have hi : instrOf o k = i := by
        simp only [ho, hk] at h
        split at h
        · exact Except.ok.inj h
        · cases h
      rw [← hi, encode_instrOf, opcodeOf_eq_some.mp ho, operandOf_eq_some.mp hk]

/-- The opcode word 3 is jnz alone, and the operand word is its operand field (30_encoding.md R67). -/
theorem encode_eq_opcode_three {i : Instr} {arg : Word} (h : encode i = (3#64, arg)) :
    ∃ k, i = .jnz k ∧ arg = wordOf k := by
  cases i with
  | jnz k => exact ⟨k, rfl, (congrArg Prod.snd h).symm⟩
  | _ => simp [encode] at h

end Sys2Proof

namespace Sys2Proof.Machine

/-! ### The program counter of host moves -/

/-- A Launch that is not refused answers the state of 70_reset_and_hazards.md R191. -/
theorem State.launch_next_eq {s t : State} {a b c : Word} {prog : List Word} (h : s.launch a b c prog = .next t) :
    t = s.launched a b c prog := by
  unfold State.launch at h
  split at h
  · cases h
  · split at h
    · cases h
    · exact (Host.Outcome.next.inj h).symm

@[simp] theorem State.launched_pc (s : State) (a b c : Word) (prog : List Word) : (s.launched a b c prog).pc = 0#64 :=
  rfl
@[simp] theorem State.assertReset_pc (s : State) : s.assertReset.pc = 0#64 := rfl

/-! ### The program counter of a step -/

/-- IMEM is shorter than 2^63 + 1 words in every state of the invariant (00_scope.md R5, 20_memory.md R40). -/
theorem State.Inv.n_le {s : State} (h : s.Inv) : s.n ≤ 2 ^ 63 := by
  obtain ⟨hcap, hwf, -⟩ := h
  simp only [Memory.wf, Bool.and_eq_true, decide_eq_true_eq] at hwf
  exact hwf.1.trans hcap

/-- Where a pair is left to execute, the default advance does not wrap (10_state.md R26). -/
theorem State.Inv.advance_pc_toNat {s : State} (h : s.Inv) (hn : s.pc.toNat + 1 < s.n) :
    s.advance.pc.toNat = s.pc.toNat + 2 := by
  have := h.n_le
  exact State.advance_pc_toNat (by omega)

/-- An instruction after which CORE goes on either is a taken jnz or makes the default advance. -/
theorem exec_pc_of_running {i : Instr} {s t : State} (he : exec i s = .next t) (ht : t.runState = .running) :
    (∃ k, i = .jnz k ∧ s.a ≠ 0#64 ∧ t.pc = wordOf k) ∨
      ((∀ k, i = .jnz k → s.a = 0#64) ∧ t.pc = s.advance.pc) := by
  cases exec_next_effect he with
  | wrote d v hw =>
    refine .inr ⟨?_, by simp⟩
    rintro k rfl
    simp [Instr.writes] at hw
  | jumped k hi ha => exact .inl ⟨k, hi, ha, rfl⟩
  | fellThrough k hi ha => exact .inr ⟨fun _ _ => ha, rfl⟩
  | appended k v hi => exact .inr ⟨by simp [hi], rfl⟩
  | overflowed => simp at ht
  | reserved => simp at ht

/-- An instruction that ends the run does so in a fault, which leaves pc (60_exceptions.md R167). -/
theorem exec_pc_of_stopped {i : Instr} {s t : State} (hs : s.runState = .running) (he : exec i s = .next t)
    (ht : t.runState ≠ .running) : t.pc = s.pc := by
  cases exec_next_effect he with
  | wrote => simp [hs] at ht
  | jumped => simp [hs] at ht
  | fellThrough => simp [hs] at ht
  | appended => simp [hs] at ht
  | overflowed => rfl
  | reserved => rfl

/-- A step that ends a run leaves pc (40_execution_loop.md R81, 60_exceptions.md R167). -/
theorem step_pc_of_stopped {s t : State} (hs : s.runState = .running) (h : step s = .next t)
    (ht : t.runState ≠ .running) : t.pc = s.pc := by
  cases step_next_case h with
  | stopped => rfl
  | halts => rfl
  | limit => rfl
  | invalid => rfl
  | ran op arg i u hn hp hd he hu => exact absurd hu ht
  | faulted op arg i _ hn hp hd he => exact exec_pc_of_stopped hs he ht

/-- A step after which CORE goes on has executed the instruction at pc, and its pc is that instruction's. -/
theorem step_of_running {s t : State} (hs : s.runState = .running) (h : step s = .next t)
    (ht : t.runState = .running) :
    ∃ op arg i u, s.AtPair op arg ∧ decode op arg = .ok i ∧ exec i s = .next u ∧ u.runState = .running ∧
      t = u.countStep := by
  cases step_next_case h with
  | stopped hstop => exact absurd hs hstop
  | halts => simp at ht
  | limit => simp at ht
  | invalid => simp at ht
  | ran op arg i u hn hp hd he hu => exact ⟨op, arg, i, u, hp, hd, he, hu, rfl⟩
  | faulted op arg i _ hn hp hd he hu => exact absurd ht hu

/-- The pc after an executed pair: the operand word of a taken jnz, else two words on (10_state.md R25). -/
theorem exec_pc_of_decode {s u : State} {op arg : Word} {i : Instr} (hinv : s.Inv) (hp : s.AtPair op arg)
    (hd : decode op arg = .ok i) (he : exec i s = .next u) (hu : u.runState = .running) :
    if op = 3#64 ∧ s.a ≠ 0#64 then u.pc = arg ∧ arg.toNat ≤ 7 else u.pc.toNat = s.pc.toNat + 2 := by
  obtain ⟨-, -, -, harg⟩ := hp
  have henc := encode_of_decode_ok hd
  obtain ⟨k, rfl, ha, hpc⟩ | ⟨hnot, hpc⟩ := exec_pc_of_running he hu
  · obtain ⟨rfl, rfl⟩ := Prod.mk.inj henc
    rw [if_pos ⟨rfl, ha⟩, wordOf_toNat]
    exact ⟨hpc, by omega⟩
  · have hno : ¬(op = 3#64 ∧ s.a ≠ 0#64) := by
      rintro ⟨rfl, ha⟩
      obtain ⟨k, hi, -⟩ := encode_eq_opcode_three henc
      exact ha (hnot k hi)
    rw [if_neg hno, hpc]
    exact hinv.advance_pc_toNat (State.lt_n_of_imemRead harg)

/-- Settles O34: the clauses of R25 one by one, the step's from what an instruction can do. -/
theorem pcChangesOnlyAsListed : Obligations.PcChangesOnlyAsListed := by
  unfold Obligations.PcChangesOnlyAsListed
  refine ⟨fun s t a b c prog h => ?_, State.assertReset_pc,
    fun s t hinv hs h => ⟨step_pc_of_stopped hs h, fun ht => ?_⟩⟩
  · rw [State.launch_next_eq h, State.launched_pc]
  · obtain ⟨op, arg, i, u, hp, hd, he, hu, rfl⟩ := step_of_running hs h ht
    have hpc := exec_pc_of_decode hinv hp hd he hu
    obtain ⟨-, -, hop, harg⟩ := hp
    exact ⟨op, arg, hop, harg, hpc⟩

end Sys2Proof.Machine
end

section
/-! # PROOFS. The fetch and the two memories during a run (20_memory.md R42, R43, R45) -/

namespace Sys2Proof.Machine

/-! ### The fetch -/

/-- Without an operand word the fetch has no pair, whatever is at pc (20_memory.md R45). -/
theorem State.fetchPair_eq_none {s : State} (h : s.n ≤ s.pc.toNat + 1) : s.fetchPair = none := by
  rw [Option.eq_none_iff_forall_ne_some]
  rintro ⟨op, arg⟩ hf
  obtain ⟨-, harg⟩ := State.fetchPair_eq_some.mp hf
  have hn := State.lt_n_of_imemRead harg
  omega

/-- Settles O24: below the end the fetch is the two reads, and from there on there is no operand word. -/
theorem fetchAtAnyIndex : Obligations.FetchAtAnyIndex := by
  unfold Obligations.FetchAtAnyIndex
  refine fun s => ⟨fun hn => ?_, State.fetchPair_eq_none⟩
  obtain ⟨op, arg, hf⟩ := State.fetchPair_isSome hn
  obtain ⟨hop, harg⟩ := State.fetchPair_eq_some.mp hf
  exact ⟨op, arg, hop, harg, hf⟩

/-! ### The instruction memory -/

/-- No effect of an instruction touches IMEM (20_memory.md R42). -/
theorem exec_imem {i : Instr} {s t : State} (h : exec i s = .next t) : t.imem = s.imem := by
  cases exec_next_effect h with
  | wrote => simp
  | jumped => rfl
  | fellThrough => rfl
  | appended => rfl
  | overflowed => rfl
  | reserved => rfl

/-- No step touches IMEM, in any STATE (20_memory.md R42). -/
theorem step_imem {s t : State} (h : step s = .next t) : t.imem = s.imem := by
  cases step_next_case h with
  | stopped => rfl
  | halts => rfl
  | limit => rfl
  | invalid => rfl
  | ran _ _ _ u _ _ _ he => exact u.countStep_imem.trans (exec_imem he)
  | faulted _ _ _ _ _ _ _ he => exact exec_imem he

/-- A Launch while RUNNING is refused, whatever the program (70_reset_and_hazards.md R192). -/
theorem State.launch_of_running {s : State} (h : s.runState = .running) (a b c : Word) (prog : List Word) :
    s.launch a b c prog = .refused .launchWhileRunning := by
  simp [State.launch, h]

/-- Settles O20: neither a step nor an instruction has an effect that writes IMEM, and Launch tests STATE first. -/
theorem imemUnchangedDuringRun : Obligations.ImemUnchangedDuringRun := by
  unfold Obligations.ImemUnchangedDuringRun
  exact ⟨fun _ _ _ h => .of_imem_eq (step_imem h), fun _ _ _ h => .of_imem_eq (exec_imem h),
    fun _ a b c prog hs => State.launch_of_running hs a b c prog⟩

/-! ### The steps that execute no instruction -/

/-- A running CORE without an operand word at pc + 1 halts (40_execution_loop.md R81). -/
theorem step_of_no_operand_word {s : State} (hs : s.runState = .running) (hn : s.n ≤ s.pc.toNat + 1) :
    step s = .next s.halt := by
  refine step_of_issue_stop ?_
  rw [State.issue, if_pos (s.running_eq_true.mpr hs), if_pos (State.haltTest_eq_true.mpr hn)]

/-- A running CORE that passes the halt test with STEPS = STEP_CAP faults before the fetch (40_execution_loop.md R82). -/
theorem step_of_stepCap_reached {s : State} (hs : s.runState = .running) (hn : s.pc.toNat + 1 < s.n)
    (hl : s.config.stepCap = some s.steps.toNat) : step s = .next (s.raise .stepLimit) := by
  refine step_of_issue_stop ?_
  rw [State.issue, if_pos (s.running_eq_true.mpr hs), if_neg (fun h => absurd (State.haltTest_eq_true.mp h) (by omega)),
    if_pos (State.stepLimitReached_eq_true.mpr hl)]

/-! ### Writes of OUT -/

/-- An instruction leaves OUT alone, or it is an out that appends one entry (20_memory.md R43). -/
theorem exec_sameOut_or_appended {i : Instr} {s t : State} (h : exec i s = .next t) :
    s.SameOut t ∨ ∃ (k : Combo) (d : Digit), i = .out k ∧ s.Appended t d := by
  cases exec_next_effect h with
  | wrote => exact .inl (.of_out_eq (by simp))
  | jumped => exact .inl (.of_out_eq rfl)
  | fellThrough => exact .inl (.of_out_eq rfl)
  | appended k v hi => exact .inr ⟨k, v, hi, .of_out_eq rfl⟩
  | overflowed => exact .inl (.of_out_eq rfl)
  | reserved => exact .inl (.of_out_eq rfl)

/-! ### Reads of OUT

Two outcomes are compared: one from a machine with `out` in OUT, one from the same machine with `other` there. -/

/-- Both outcomes are next states, they add the same entries to OUT, and they agree outside OUT. -/
def AppendsSame (out other : List Digit) (o o' : Host.Outcome State Fault Refusal) : Prop :=
  ∃ t added, o = .next t ∧ t.out = out ++ added ∧ o' = .next (t.withOut (other ++ added))

/-- An operation that does not write OUT adds no entries. -/
theorem AppendsSame.of_out_eq {out : List Digit} {t : State} (h : t.out = out) (other : List Digit) :
    AppendsSame out other (.next t) (.next (t.withOut other)) :=
  ⟨t, [], rfl, by simp [h], by simp⟩

/-- An append adds its one entry. -/
theorem AppendsSame.of_append (s : State) (other : List Digit) (v : Digit) :
    AppendsSame s.out other (.next (s.appendOut v).advance) (.next ((s.withOut other).appendOut v).advance) :=
  ⟨(s.appendOut v).advance, [v], rfl, rfl, rfl⟩

/-- The count of R88 reads no entry of OUT. -/
theorem AppendsSame.retire {out other : List Digit} {o o' : Host.Outcome State Fault Refusal}
    (h : AppendsSame out other o o') : AppendsSame out other (retire o) (retire o') := by
  obtain ⟨t, added, rfl, hout, rfl⟩ := h
  by_cases hr : t.runState = .running
  · exact ⟨t.countStep, added, retire_running hr, hout, retire_running hr⟩
  · exact ⟨t, added, retire_stopped hr, hout, retire_stopped hr⟩

/-- A combo operand names no entry of OUT. -/
theorem AppendsSame.withCombo {s : State} {other : List Digit} {run run' : Word → Host.Outcome State Fault Refusal}
    (k : Combo) (h : ∀ v, AppendsSame s.out other (run v) (run' v)) :
    AppendsSame s.out other (s.withCombo k run) ((s.withOut other).withCombo k run') := by
  cases k with
  | lit v => exact h _
  | reg r => exact h (s.reg r)
  | reserved => exact .of_out_eq rfl other

/-- The capacity test reads the number of entries alone (44_output.md R151). -/
theorem State.withOut_outFull {s : State} {other : List Digit} (hlen : other.length = s.outLen) :
    (s.withOut other).outFull = s.outFull := by
  rw [Bool.eq_iff_iff, State.outFull_eq_true, State.outFull_eq_true, ← hlen]
  rfl

/-- The shift family neither reads nor writes OUT. -/
theorem shiftInto_appendsSame (s : State) (other : List Digit) (d : Reg) (k : Combo) :
    AppendsSame s.out other (s.shiftInto d k) ((s.withOut other).shiftInto d k) := by
  refine .withCombo k fun v => ?_
  cases d <;> exact .of_out_eq rfl other

/-- On a buffer with the same number of entries, out appends the same entry or overflows alike (44_output.md R150,
R151). -/
theorem execOut_appendsSame {s : State} {other : List Digit} (hlen : other.length = s.outLen) (k : Combo) :
    AppendsSame s.out other (execOut k s) (execOut k (s.withOut other)) := by
  refine .withCombo k fun v => ?_
  rw [State.withOut_outFull hlen]
  cases s.outFull with
  | true => exact .of_out_eq rfl other
  | false => exact .of_append s other (mod8 v)

/-- No instruction reads an entry of OUT (20_memory.md R43). -/
theorem exec_appendsSame {s : State} {other : List Digit} (hlen : other.length = s.outLen) (i : Instr) :
    AppendsSame s.out other (exec i s) (exec i (s.withOut other)) := by
  cases i with
  | adv k => exact shiftInto_appendsSame s other .a k
  | bxl k => exact .of_out_eq rfl other
  | bst k => exact .withCombo k fun v => .of_out_eq rfl other
  | jnz k =>
    have htest : (s.withOut other).aNonZero = s.aNonZero := rfl
    rw [exec, execJnz, exec, execJnz, htest]
    cases s.aNonZero with
    | true => exact .of_out_eq rfl other
    | false => exact .of_out_eq rfl other
  | bxc k => exact .of_out_eq rfl other
  | out k => exact execOut_appendsSame hlen k
  | bdv k => exact shiftInto_appendsSame s other .b k
  | cdv k => exact shiftInto_appendsSame s other .c k

/-- No step of a running CORE reads an entry of OUT (20_memory.md R43). -/
theorem step_appendsSame {s : State} {other : List Digit} (hs : s.runState = .running)
    (hlen : other.length = s.outLen) : AppendsSame s.out other (step s) (step (s.withOut other)) := by
  obtain ⟨t, -, hcase⟩ := step_case s
  cases hcase with
  | stopped hstop => exact absurd hs hstop
  | halts _ hn =>
    rw [step_of_no_operand_word hs hn, step_of_no_operand_word (s := s.withOut other) hs hn]
    exact .of_out_eq rfl other
  | limit _ hn hl =>
    rw [step_of_stepCap_reached hs hn hl, step_of_stepCap_reached (s := s.withOut other) hs hn hl]
    exact .of_out_eq rfl other
  | invalid op arg r _ hp hd =>
    rw [hp.step_of_error hd, State.AtPair.step_of_error (s := s.withOut other) hp hd]
    exact .of_out_eq rfl other
  | ran op arg i t _ hp hd | faulted op arg i t _ hp hd =>
    rw [hp.step_of_ok hd, State.AtPair.step_of_ok (s := s.withOut other) hp hd]
    exact (exec_appendsSame hlen i).retire

/-- Settles O19: the one effect that writes OUT is the append of out, and a step commutes with a change of the entries. -/
theorem outWrittenOnlyByAppend : Obligations.OutWrittenOnlyByAppend := by
  unfold Obligations.OutWrittenOnlyByAppend
  refine ⟨fun i s t he => ?_, fun s t other hs hlen ht => ?_⟩
  · refine (exec_sameOut_or_appended he).imp_right ?_
    rintro ⟨k, d, hi, happ⟩
    exact ⟨k, d, hi, by omega, happ⟩
  · obtain ⟨u, added, hu, hout, hother⟩ := step_appendsSame hs hlen
    obtain rfl := Host.Outcome.next.inj (ht.symm.trans hu)
    exact ⟨added, hout, hother⟩

end Sys2Proof.Machine
end

section
/-! # PROOFS. The combo operand and its reserved value (30_encoding.md R64) -/

namespace Sys2Proof.Machine

/-- The five opcodes that take a combo operand (30_encoding.md R63). -/
theorem comboOpcode_eq_true {op : Word} :
    comboOpcode op = true ↔ op = 0#64 ∨ op = 2#64 ∨ op = 5#64 ∨ op = 6#64 ∨ op = 7#64 := by
  simp [comboOpcode, or_assoc]

/-- Decode refuses the reserved operand after every combo opcode (60_exceptions.md R163). -/
theorem decode_reserved_operand {op : Word} (h : comboOpcode op = true) :
    decode op 7#64 = .error .reservedCombo := by
  obtain rfl | rfl | rfl | rfl | rfl := comboOpcode_eq_true.mp h <;> rfl

/-- A pair at pc that decode refuses ends the run with the cause of the refusal and changes nothing else
(60_exceptions.md R167). -/
theorem State.AtPair.faultedOnly_of_error {s : State} {op arg : Word} {r : InvalidReason} (hp : s.AtPair op arg)
    (hd : decode op arg = .error r) :
    ∃ t, step s = .next t ∧ s.FaultedOnly t (Cause.invalidInstruction r).code :=
  ⟨_, hp.step_of_error hd, s.raise_faultedOnly _⟩

theorem reservedOperandFaults_of_comboOpcode {op : Word} (h : comboOpcode op = true) : ReservedOperandFaults op :=
  ⟨decode_reserved_operand h, fun _ hp => hp.faultedOnly_of_error (decode_reserved_operand h)⟩

/-- Settles O5: the eight fields one by one, and the refusal at decode that every combo opcode shares. -/
theorem comboOperandValues : Obligations.ComboOperandValues := by
  unfold Obligations.ComboOperandValues
  exact ⟨fun _ => ⟨rfl, rfl, rfl, rfl, rfl, rfl, rfl, rfl⟩, fun _ => reservedOperandFaults_of_comboOpcode⟩

end Sys2Proof.Machine
end

section
/-! # PROOFS. The halt test (40_execution_loop.md R81) -/

namespace Sys2Proof.Machine

/-- An instruction leaves STATE alone or ends the run in a fault: none halts (40_execution_loop.md R81). -/
theorem exec_runState {i : Instr} {s t : State} (h : exec i s = .next t) :
    t.runState = s.runState ∨ t.runState = .faulted := by
  cases exec_next_effect h with
  | wrote => exact .inl (by simp)
  | jumped => exact .inl rfl
  | fellThrough => exact .inl rfl
  | appended => exact .inl rfl
  | overflowed => exact .inr (s.raise_runState _)
  | reserved => exact .inr (s.raise_runState _)

/-- The halt test is the only way from RUNNING to HALTED (40_execution_loop.md R81). -/
theorem no_operand_word_of_step_halted {s t : State} (hs : s.runState = .running) (h : step s = .next t)
    (ht : t.runState = .halted) : s.n ≤ s.pc.toNat + 1 := by
  cases step_next_case h with
  | stopped hstop => exact absurd hs hstop
  | halts _ hn => exact hn
  | limit => simp at ht
  | invalid => simp at ht
  | ran op arg i u hn hp hd he hu => simp [hu] at ht
  | faulted op arg i _ hn hp hd he =>
    obtain hsame | hfault := exec_runState he
    · simp [hsame, hs] at ht
    · simp [hfault] at ht

/-- Settles O25: without an operand word the step is the halt, which writes STATUS alone, and every other step of a
running CORE goes on or faults. -/
theorem haltsWhenNoOperandWord : Obligations.HaltsWhenNoOperandWord := by
  unfold Obligations.HaltsWhenNoOperandWord
  refine fun s hs => ⟨fun hn => ?_, fun hn t h ht => ?_⟩
  · exact ⟨s.halt, step_of_no_operand_word hs hn, s.halt_runState, s.halt_causeField, ⟨rfl, rfl, rfl⟩, rfl,
      .of_imem_eq rfl, .of_out_eq rfl, rfl, rfl⟩
  · exact absurd (no_operand_word_of_step_halted hs h ht) (by omega)

end Sys2Proof.Machine
end

section
/-! # PROOFS. The shift family (41_shift.md R100 to R103) -/

namespace Sys2Proof

/-- The words of a well-formed instruction decode to it (30_encoding.md R66, R67). -/
theorem decode_word_of_wellFormed {o : Opcode} {k : Digit} (h : (instrOf o k).wellFormed = true) :
    decode o.word (wordOf k) = .ok (instrOf o k) := by
  simp [decode, opcodeOf_eq_some.mpr rfl, operandOf_eq_some.mpr rfl, h]

/-- Every operand field but 7 is a legal combo operand (30_encoding.md R64). -/
theorem comboOf_wellFormed_of_ne {k : Digit} (h : k ≠ 7#3) : (comboOf k).wellFormed = true := by
  simpa [comboOf_wellFormed] using h

end Sys2Proof

namespace Sys2Proof.Machine

/-! ### The shift law -/

/-- A full-width shift is 0 from 64 on by itself, so the test of `shr` never changes its value. -/
theorem shr_eq_ushiftRight (x k : Word) : shr x k = x >>> k.toNat := by
  obtain h | h := Nat.lt_or_ge k.toNat 64
  · exact shr_of_lt h
  · rw [shr_of_ge h, BitVec.ushiftRight_eq_zero h]

@[simp] theorem shr_toNat (x k : Word) : (shr x k).toNat = x.toNat / 2 ^ k.toNat := by
  rw [shr_eq_ushiftRight, BitVec.toNat_ushiftRight, Nat.shiftRight_eq_div_pow]

/-- Settles O7: `shr` is the plain shift at every amount, which is a division, and its own test gives the 0. -/
theorem shiftLaw : Obligations.ShiftLaw := by
  unfold Obligations.ShiftLaw
  exact fun x k => ⟨shr_toNat x k, fun _ => shr_eq_ushiftRight x k, shr_of_ge⟩

/-! ### A register write with the default advance -/

@[simp] theorem State.advance_reg (s : State) (r : Reg) : s.advance.reg r = s.reg r := by cases r <;> rfl

/-- A register reads what was written to it, and every other register reads as before (10_state.md R21). -/
theorem State.writeReg_reg (s : State) (d r : Reg) (v : Word) :
    (s.writeReg d v).reg r = if r = d then v else s.reg r := by
  cases d <;> cases r <;> rfl

/-- A register write with the default advance leaves everything but the registers and pc as it is. -/
theorem State.writeReg_advance_frame (s : State) (d : Reg) (v : Word) :
    s.Advanced (s.writeReg d v).advance ∧ s.SameImem (s.writeReg d v).advance ∧
      s.SameOut (s.writeReg d v).advance ∧ s.SameControl (s.writeReg d v).advance := by
  refine ⟨fun hpc => ?_, .of_imem_eq (by simp), .of_out_eq (by simp), by simp, by simp, by simp⟩
  have hpc' : (s.writeReg d v).pc.toNat + 2 < 2 ^ 64 := by rwa [State.writeReg_pc]
  rw [State.advance_pc_toNat hpc', State.writeReg_pc]

/-! ### adv, bdv and cdv -/

/-- A shift on a combo value completes: A shifted right is in the destination, the other registers are kept, and all
else is unchanged but for the default advance (41_shift.md R100 to R102). -/
theorem State.shiftInto_of_comboValue {s : State} {k : Combo} {v : Word} (d : Reg) (h : s.comboValue k = some v) :
    ∃ t, s.shiftInto d k = .next t ∧ (t.reg d).toNat = s.a.toNat / 2 ^ v.toNat ∧ (∀ r, r ≠ d → t.reg r = s.reg r) ∧
      s.Advanced t ∧ s.SameImem t ∧ s.SameOut t ∧ s.SameControl t := by
  refine ⟨_, State.withCombo_of_some h _, ?_, fun r hr => ?_, s.writeReg_advance_frame d _⟩
  · rw [State.advance_reg, State.writeReg_reg, if_pos rfl, shr_toNat, State.reg_a]
  · rw [State.advance_reg, State.writeReg_reg, if_neg hr]

/-- Settles O9: the shift into A, on the words of opcode 0. -/
theorem advShiftsAIntoA : Obligations.AdvShiftsAIntoA := by
  unfold Obligations.AdvShiftsAIntoA
  refine ⟨fun k hk => decode_word_of_wellFormed (o := .adv) (comboOf_wellFormed_of_ne hk),
    reservedOperandFaults_of_comboOpcode rfl, fun s k v hv => ?_⟩
  obtain ⟨t, ht, hval, hkeep, hframe⟩ := State.shiftInto_of_comboValue .a hv
  exact ⟨t, ht, hval, hkeep .b (by decide), hkeep .c (by decide), hframe⟩

/-- Settles O10: the shift into B, on the words of opcode 6. -/
theorem bdvShiftsAIntoB : Obligations.BdvShiftsAIntoB := by
  unfold Obligations.BdvShiftsAIntoB
  refine ⟨fun k hk => decode_word_of_wellFormed (o := .bdv) (comboOf_wellFormed_of_ne hk),
    reservedOperandFaults_of_comboOpcode rfl, fun s k v hv => ?_⟩
  obtain ⟨t, ht, hval, hkeep, hframe⟩ := State.shiftInto_of_comboValue .b hv
  exact ⟨t, ht, hval, hkeep .a (by decide), hkeep .c (by decide), hframe⟩

/-- Settles O11: the shift into C, on the words of opcode 7. -/
theorem cdvShiftsAIntoC : Obligations.CdvShiftsAIntoC := by
  unfold Obligations.CdvShiftsAIntoC
  refine ⟨fun k hk => decode_word_of_wellFormed (o := .cdv) (comboOf_wellFormed_of_ne hk),
    reservedOperandFaults_of_comboOpcode rfl, fun s k v hv => ?_⟩
  obtain ⟨t, ht, hval, hkeep, hframe⟩ := State.shiftInto_of_comboValue .c hv
  exact ⟨t, ht, hval, hkeep .a (by decide), hkeep .b (by decide), hframe⟩

end Sys2Proof.Machine
end

section
/-! # PROOFS. The bitwise family (42_bitwise.md R120 to R123) -/

namespace Sys2Proof

/-- After a legal opcode word, an operand word above 7 is BadOperand, whatever the opcode does with its operand
(60_exceptions.md R162). -/
theorem decode_word_of_operand_above_7 (o : Opcode) {arg : Word} (h : 7 < arg.toNat) :
    decode o.word arg = .error .badOperand := by
  simp [decode, opcodeOf_eq_some.mpr rfl, operandOf_eq_none.mpr h]

end Sys2Proof

namespace Sys2Proof.Machine

/-- An xor with a 3-bit literal keeps the bits [63:3] (42_bitwise.md R120). -/
theorem xor_literalValue_div_8 (x : Word) (k : Digit) : (x ^^^ literalValue k).toNat / 8 = x.toNat / 8 := by
  have hk : k.toNat / 2 ^ 3 = 0 := Nat.div_eq_of_lt k.isLt
  calc (x ^^^ literalValue k).toNat / 2 ^ 3 = (x.toNat ^^^ k.toNat) / 2 ^ 3 := by
        rw [BitVec.toNat_xor, literalValue_toNat]
    _ = x.toNat / 2 ^ 3 := by rw [Nat.xor_div_two_pow, hk, Nat.xor_zero]

/-- A write of B with the default advance: B holds the value, A and C are kept, and all else is unchanged. -/
theorem State.writeReg_b_advance (s : State) (v : Word) :
    (s.writeReg .b v).advance.b = v ∧ (s.writeReg .b v).advance.a = s.a ∧ (s.writeReg .b v).advance.c = s.c ∧
      s.Advanced (s.writeReg .b v).advance ∧ s.SameImem (s.writeReg .b v).advance ∧
      s.SameOut (s.writeReg .b v).advance ∧ s.SameControl (s.writeReg .b v).advance :=
  ⟨rfl, rfl, rfl, s.writeReg_advance_frame .b v⟩

/-- Settles O12: every operand word is a literal, and an xor with it leaves the bits above its three. -/
theorem bxlXorsLiteralIntoB : Obligations.BxlXorsLiteralIntoB := by
  unfold Obligations.BxlXorsLiteralIntoB
  refine ⟨fun k => decode_word_of_wellFormed (o := .bxl) rfl, fun s k => ?_⟩
  obtain ⟨hb, hframe⟩ := s.writeReg_b_advance (s.b ^^^ literalValue k)
  refine ⟨_, rfl, ?_, ?_, hframe⟩
  · rw [State.reg_b, hb, BitVec.toNat_xor, literalValue_toNat]
  · rw [State.reg_b, hb, xor_literalValue_div_8]

/-- Settles O13: the combo value mod 8 is written to B, on the words of opcode 2. -/
theorem bstSetsBToValueMod8 : Obligations.BstSetsBToValueMod8 := by
  unfold Obligations.BstSetsBToValueMod8
  refine ⟨fun k hk => decode_word_of_wellFormed (o := .bst) (comboOf_wellFormed_of_ne hk),
    reservedOperandFaults_of_comboOpcode rfl, fun s k v hv => ?_⟩
  obtain ⟨hb, hframe⟩ := s.writeReg_b_advance (zext64 (mod8 v))
  refine ⟨_, State.withCombo_of_some hv _, ?_, hframe⟩
  rw [hb, zext64_toNat, mod8_toNat]

/-- Settles O14: the operand does not reach the instruction, so one next state serves every operand. -/
theorem bxcXorsCIntoB : Obligations.BxcXorsCIntoB := by
  unfold Obligations.BxcXorsCIntoB
  refine ⟨fun k => decode_word_of_wellFormed (o := .bxc) rfl, fun arg => decode_word_of_operand_above_7 .bxc,
    fun s k => ?_⟩
  obtain ⟨hb, hframe⟩ := s.writeReg_b_advance (s.b ^^^ s.c)
  refine ⟨_, rfl, fun _ => rfl, ?_, hframe⟩
  rw [State.reg_b, State.reg_c, hb, BitVec.toNat_xor]

end Sys2Proof.Machine
end

section
/-! # PROOFS. Control transfer (43_control.md R140) -/

namespace Sys2Proof.Machine

/-- A program-counter write leaves everything but pc as it is (00_scope.md R8). -/
theorem State.jump_frame (s : State) (target : Word) :
    s.SameRegs (s.jump target) ∧ s.SameImem (s.jump target) ∧ s.SameOut (s.jump target) ∧
      s.SameControl (s.jump target) :=
  ⟨⟨rfl, rfl, rfl⟩, .of_imem_eq rfl, .of_out_eq rfl, rfl, rfl, rfl⟩

theorem exec_jnz_of_a_ne_zero {s : State} (k : Digit) (h : s.a ≠ 0#64) :
    exec (.jnz k) s = .next (s.jump (literalValue k)) := by
  simp [exec, execJnz, State.aNonZero, h]

theorem exec_jnz_of_a_eq_zero {s : State} (k : Digit) (h : s.a = 0#64) : exec (.jnz k) s = .next s.advance := by
  simp [exec, execJnz, State.aNonZero, h]

/-- Settles O15: both branches are program-counter writes, to the literal or to pc + 2, so they share one frame. -/
theorem jnzJumpsWhenANotZero : Obligations.JnzJumpsWhenANotZero := by
  unfold Obligations.JnzJumpsWhenANotZero
  refine ⟨fun k => decode_word_of_wellFormed (o := .jnz) rfl, fun s k => ?_⟩
  by_cases ha : s.a = 0#64
  · have hzero : s.a.toNat = 0 := congrArg BitVec.toNat ha
    exact ⟨s.advance, exec_jnz_of_a_eq_zero k ha, fun h => absurd hzero h, fun _ => State.advance_pc_toNat,
      s.jump_frame _⟩
  · have hne : s.a.toNat ≠ 0 := fun h => ha (BitVec.eq_of_toNat_eq h)
    exact ⟨s.jump (literalValue k), exec_jnz_of_a_ne_zero k ha, fun _ => literalValue_toNat k,
      fun h => absurd h hne, s.jump_frame _⟩

end Sys2Proof.Machine
end

section
/-! # PROOFS. Output (44_output.md R150, R151) -/

namespace Sys2Proof.Machine

/-- With room in OUT, an out on a combo value appends the value mod 8 and advances (44_output.md R150). -/
theorem exec_out_of_room {s : State} {k : Combo} {v : Word} (hv : s.comboValue k = some v)
    (hroom : s.config.outCap ≠ some s.outLen) : exec (.out k) s = .next (s.appendOut (mod8 v)).advance := by
  rw [exec, execOut, State.withCombo_of_some hv, if_neg (mt State.outFull_eq_true.mp hroom)]

/-- With OUT_LEN = OUT_CAP, an out on a combo value raises OutputOverflow (44_output.md R151). -/
theorem exec_out_of_full {s : State} {k : Combo} {v : Word} (hv : s.comboValue k = some v)
    (hfull : s.config.outCap = some s.outLen) : exec (.out k) s = .next (s.raise .outputOverflow) := by
  rw [exec, execOut, State.withCombo_of_some hv, if_pos (State.outFull_eq_true.mpr hfull)]

/-- An append with the default advance leaves everything but OUT and pc as it is (20_memory.md R43). -/
theorem State.appendOut_advance_frame (s : State) (d : Digit) :
    s.SameRegs (s.appendOut d).advance ∧ s.Advanced (s.appendOut d).advance ∧ s.SameImem (s.appendOut d).advance ∧
      s.SameControl (s.appendOut d).advance :=
  ⟨⟨rfl, rfl, rfl⟩, State.advance_pc_toNat (s := s.appendOut d), .of_imem_eq rfl, rfl, rfl, rfl⟩

/-- Settles O16: on the words of opcode 5, the capacity test decides between the append and the fault entry. -/
theorem outAppendsValueMod8 : Obligations.OutAppendsValueMod8 := by
  unfold Obligations.OutAppendsValueMod8
  refine ⟨fun k hk => decode_word_of_wellFormed (o := .out) (comboOf_wellFormed_of_ne hk),
    reservedOperandFaults_of_comboOpcode rfl, fun s k v hv => ⟨fun hroom => ?_, fun hfull => ?_⟩⟩
  · exact ⟨_, mod8 v, exec_out_of_room hv hroom, mod8_toNat v, .of_out_eq rfl, s.appendOut_advance_frame _⟩
  · exact ⟨_, exec_out_of_full hv hfull, s.raise_faultedOnly .outputOverflow⟩

end Sys2Proof.Machine
end

section
/-! # PROOFS. The refusals of decode (60_exceptions.md R161, R163) -/

namespace Sys2Proof

/-- An opcode word above 7 is BadOpcode before the operand word is looked at (60_exceptions.md R161). -/
theorem decode_opcode_above_7 {op : Word} (h : 7 < op.toNat) (arg : Word) : decode op arg = .error .badOpcode := by
  simp [decode, opcodeOf_eq_none.mpr h]

/-- Every opcode word up to 7 is the word of an opcode (30_encoding.md R67). -/
theorem exists_opcode_of_le_7 {op : Word} (h : op.toNat ≤ 7) : ∃ o : Opcode, op = o.word := by
  cases ho : opcodeOf op with
  | none => exact absurd (opcodeOf_eq_none.mp ho) (by omega)
  | some o => exact ⟨o, opcodeOf_eq_some.mp ho⟩

end Sys2Proof

namespace Sys2Proof.Machine

/-- An opcode without a combo operand has no reserved form, and it is not out (30_encoding.md R63, R64). -/
theorem instrOf_of_comboOpcode_eq_false {o : Opcode} (h : comboOpcode o.word = false) (k : Digit) :
    (instrOf o k).wellFormed = true ∧ ∀ k', instrOf o k ≠ .out k' := by
  cases o with
  | bxl | jnz | bxc => exact ⟨rfl, nofun⟩
  | adv | bst | out | bdv | cdv => exact absurd h (by decide)

/-- A reserved operand and an out are the only ways an instruction faults: any other leaves STATE alone
(60_exceptions.md R160). -/
theorem exec_runState_of_not_out {i : Instr} {s t : State} (hw : i.wellFormed = true) (ho : ∀ k, i ≠ .out k)
    (h : exec i s = .next t) : t.runState = s.runState := by
  cases exec_next_effect h with
  | wrote => simp
  | jumped => rfl
  | fellThrough => rfl
  | appended => rfl
  | overflowed k hi => exact absurd hi (ho k)
  | reserved hr => simp [hw] at hr

/-- At a pair that decodes to such an instruction, the step leaves CORE running (40_execution_loop.md R88). -/
theorem State.AtPair.step_running_of_not_out {s : State} {op arg : Word} {i : Instr} (hp : s.AtPair op arg)
    (hd : decode op arg = .ok i) (hw : i.wellFormed = true) (ho : ∀ k, i ≠ .out k) :
    ∃ t, step s = .next t ∧ t.runState = .running := by
  obtain ⟨u, hu, -⟩ := exec_effect i s
  have hrun : u.runState = .running := (exec_runState_of_not_out hw ho hu).trans hp.1
  refine ⟨u.countStep, ?_, hrun⟩
  rw [hp.step_of_ok hd, hu, retire_running hrun]

/-- Settles O26: the refusal is decode's, whatever the operand word, and a refusal writes STATUS alone. -/
theorem opcodeAbove7Faults : Obligations.OpcodeAbove7Faults := by
  unfold Obligations.OpcodeAbove7Faults
  exact fun _ _ arg hp hop => hp.faultedOnly_of_error (decode_opcode_above_7 hop arg)

/-- Settles O28: decode refuses the reserved combo operand; for bxl, jnz and bxc the operand word 7 is a legal field,
and those instructions cannot fault. -/
theorem operand7FaultsInComboOnly : Obligations.Operand7FaultsInComboOnly := by
  unfold Obligations.Operand7FaultsInComboOnly
  refine ⟨fun s op hp hc => (reservedOperandFaults_of_comboOpcode hc).2 s hp, fun s op hp hop hc => ?_⟩
  obtain ⟨o, rfl⟩ := exists_opcode_of_le_7 hop
  obtain ⟨hw, hout⟩ := instrOf_of_comboOpcode_eq_false hc 7#3
  exact hp.step_running_of_not_out (decode_word_of_wellFormed hw) hw hout

end Sys2Proof.Machine
end

section
/-! # PROOFS. The decoder against the encoder (30_encoding.md R66, R67) -/

namespace Sys2Proof

/-- Every instruction is the reading of an opcode and an operand field (30_encoding.md R63). -/
theorem exists_instrOf (i : Instr) : ∃ o k, i = instrOf o k := by
  cases i with
  | adv k => exact ⟨.adv, k.field, by simp [instrOf]⟩
  | bxl k => exact ⟨.bxl, k, rfl⟩
  | bst k => exact ⟨.bst, k.field, by simp [instrOf]⟩
  | jnz k => exact ⟨.jnz, k, rfl⟩
  | bxc k => exact ⟨.bxc, k, rfl⟩
  | out k => exact ⟨.out, k.field, by simp [instrOf]⟩
  | bdv k => exact ⟨.bdv, k.field, by simp [instrOf]⟩
  | cdv k => exact ⟨.cdv, k.field, by simp [instrOf]⟩

theorem decode_encode {i : Instr} (h : i.wellFormed = true) : decode (encode i).1 (encode i).2 = .ok i := by
  obtain ⟨o, k, rfl⟩ := exists_instrOf i
  rw [encode_instrOf]
  exact decode_word_of_wellFormed h

/-- The decoder never answers an ill-formed instruction (30_encoding.md R66). -/
theorem wellFormed_of_decode_ok {op arg : Word} {i : Instr} (h : decode op arg = .ok i) : i.wellFormed = true := by
  unfold decode at h
  split at h
  · cases h
  · split at h
    · cases h
    · split at h
      next hw => exact Except.ok.inj h ▸ hw
      next => cases h

/-- A legal pair of words is refused only for the reserved operand of a combo opcode (60_exceptions.md R163). -/
theorem instrOf_wellFormed_of_not_reserved {o : Opcode} {k : Digit}
    (h : ¬(Machine.comboOpcode o.word = true ∧ k = 7#3)) : (instrOf o k).wellFormed = true := by
  cases hc : Machine.comboOpcode o.word with
  | false => exact (Machine.instrOf_of_comboOpcode_eq_false hc k).1
  | true =>
    have hk : (comboOf k).wellFormed = true := comboOf_wellFormed_of_ne fun hk => h ⟨hc, hk⟩
    cases o with
    | bxl | jnz | bxc => rfl
    | adv | bst | out | bdv | cdv => exact hk

/-- Every operand word up to 7 is the word of an operand field (30_encoding.md R61). -/
theorem exists_wordOf_of_le_7 {arg : Word} (h : arg.toNat ≤ 7) : ∃ k : Digit, arg = wordOf k := by
  cases hk : operandOf arg with
  | none => exact absurd (operandOf_eq_none.mp hk) (by omega)
  | some k => exact ⟨k, operandOf_eq_some.mp hk⟩

/-- A pair that meets none of the three refusals decodes to an instruction (30_encoding.md R66). -/
theorem exists_decode_ok {op arg : Word} (hop : op.toNat ≤ 7) (harg : arg.toNat ≤ 7)
    (h : ¬(Machine.comboOpcode op = true ∧ arg.toNat = 7)) : ∃ i, decode op arg = .ok i := by
  obtain ⟨o, rfl⟩ := exists_opcode_of_le_7 hop
  obtain ⟨k, rfl⟩ := exists_wordOf_of_le_7 harg
  refine ⟨_, decode_word_of_wellFormed (instrOf_wellFormed_of_not_reserved ?_)⟩
  rintro ⟨hc, rfl⟩
  exact h ⟨hc, rfl⟩

/-- An operand word above 7 is BadOperand after every legal opcode word (60_exceptions.md R162). -/
theorem decode_operand_above_7 {op arg : Word} (hop : op.toNat ≤ 7) (harg : 7 < arg.toNat) :
    decode op arg = .error .badOperand := by
  obtain ⟨o, rfl⟩ := exists_opcode_of_le_7 hop
  exact decode_word_of_operand_above_7 o harg

/-- The operand word 7 is ReservedCombo after every combo opcode (60_exceptions.md R163). -/
theorem decode_operand_eq_7 {op arg : Word} (hop : Machine.comboOpcode op = true) (harg : arg.toNat = 7) :
    decode op arg = .error .reservedCombo := by
  obtain rfl : arg = 7#64 := BitVec.eq_of_toNat_eq harg
  exact Machine.decode_reserved_operand hop

/-- Settles O1: each pair is run through the decoder. -/
theorem sampleWordsDecode : Obligations.SampleWordsDecode := by
  unfold Obligations.SampleWordsDecode
  decide

/-- Settles O2: an instruction is the reading of its opcode and field, whose words pass the three tests. -/
theorem decodeOfEncode : Obligations.DecodeOfEncode := by
  unfold Obligations.DecodeOfEncode
  exact fun _ => decode_encode

/-- Settles O3: the decoder inverts the encoder on the pairs it accepts, and accepts what the encoder gives. -/
theorem decodeAcceptsOnlyOwnWords : Obligations.DecodeAcceptsOnlyOwnWords := by
  unfold Obligations.DecodeAcceptsOnlyOwnWords
  refine fun op arg i => ⟨fun h => ⟨wellFormed_of_decode_ok h, encode_of_decode_ok h⟩, ?_⟩
  rintro ⟨hw, henc⟩
  simpa only [henc] using decode_encode hw

/-- Settles O4: one lemma of the decoder for each of its four outcomes. -/
theorem decodeTestsInOrder : Obligations.DecodeTestsInOrder := by
  unfold Obligations.DecodeTestsInOrder
  exact fun op arg => ⟨fun hop => decode_opcode_above_7 hop arg, decode_operand_above_7, decode_operand_eq_7,
    exists_decode_ok⟩

end Sys2Proof
end

section
/-! # PROOFS. How a step ends, and what it counts (40_execution_loop.md R80 to R88, 60_exceptions.md R160 to R167) -/

namespace Sys2Proof.Machine

/-- No instruction writes STEPS or the parameters (40_execution_loop.md R88, 70_reset_and_hazards.md R198). -/
theorem exec_steps_config {i : Instr} {s t : State} (h : exec i s = .next t) :
    t.steps = s.steps ∧ t.config = s.config := by
  cases exec_next_effect h with
  | wrote => simp
  | jumped => exact ⟨rfl, rfl⟩
  | fellThrough => exact ⟨rfl, rfl⟩
  | appended => exact ⟨rfl, rfl⟩
  | overflowed => exact ⟨rfl, rfl⟩
  | reserved => exact ⟨rfl, rfl⟩

/-- Settles O38: the state that `step_case` names. -/
theorem stepAlwaysAnswersNext : Obligations.StepAlwaysAnswersNext := by
  unfold Obligations.StepAlwaysAnswersNext
  intro s
  obtain ⟨t, ht, -⟩ := step_case s
  exact ⟨t, ht⟩

/-- Settles O23: the count that follows an instruction is taken where CORE is still running, and only there. -/
theorem stepRunsDecodedInstruction : Obligations.StepRunsDecodedInstruction := by
  unfold Obligations.StepRunsDecodedInstruction
  refine fun s t op arg i hp hd he => ⟨fun ht => ⟨t.countStep, ?_, ?_, rfl⟩, fun ht => ?_⟩
  · rw [hp.step_of_ok hd, he, retire_running ht]
  · rw [State.countStep_steps_toNat, (exec_steps_config he).1]
  · rw [hp.step_of_ok hd, he, retire_stopped ht]

/-! ### The ends of a run -/

/-- Only OutputOverflow has the code 4 (60_exceptions.md R160). -/
theorem Cause.eq_outputOverflow_of_code {c : Cause} (h : c.code = 4#3) : c = .outputOverflow := by
  cases c with
  | invalidInstruction r => cases r <;> exact absurd h (by decide)
  | outputOverflow => rfl
  | stepLimit => exact absurd h (by decide)

/-- Only StepLimit has the code 5 (60_exceptions.md R160). -/
theorem Cause.eq_stepLimit_of_code {c : Cause} (h : c.code = 5#3) : c = .stepLimit := by
  cases c with
  | invalidInstruction r => cases r <;> exact absurd h (by decide)
  | outputOverflow => exact absurd h (by decide)
  | stepLimit => rfl

/-- What a running CORE that records this cause has met (60_exceptions.md R164, R165). -/
def State.MeetsCause (s : State) (c : Cause) : Prop :=
  (c = .outputOverflow → s.config.outCap = some s.outLen) ∧ (c = .stepLimit → s.config.stepCap = some s.steps.toNat)

theorem State.meetsCause_invalidInstruction (s : State) (r : InvalidReason) :
    s.MeetsCause (.invalidInstruction r) :=
  ⟨nofun, nofun⟩

/-- An instruction that ends the run does so by a fault entry. -/
theorem exec_raises_of_stopped {i : Instr} {s t : State} (hs : s.runState = .running) (h : exec i s = .next t)
    (ht : t.runState ≠ .running) : ∃ c, t = s.raise c ∧ s.MeetsCause c := by
  cases exec_next_effect h with
  | wrote => simp [hs] at ht
  | jumped => exact absurd hs ht
  | fellThrough => exact absurd hs ht
  | appended => exact absurd hs ht
  | overflowed k hi hk hfull => exact ⟨_, rfl, fun _ => State.outFull_eq_true.mp hfull, nofun⟩
  | reserved => exact ⟨_, rfl, s.meetsCause_invalidInstruction _⟩

/-- A step that ends a run is the halt or a fault entry (40_execution_loop.md R81, 60_exceptions.md R167). -/
theorem step_halts_or_raises {s t : State} (hs : s.runState = .running) (h : step s = .next t)
    (ht : t.runState ≠ .running) : t = s.halt ∨ ∃ c, t = s.raise c ∧ s.MeetsCause c := by
  cases step_next_case h with
  | stopped => exact absurd hs ht
  | halts => exact .inl rfl
  | limit _ _ hl => exact .inr ⟨_, rfl, nofun, fun _ => hl⟩
  | invalid _ _ r => exact .inr ⟨_, rfl, s.meetsCause_invalidInstruction r⟩
  | ran _ _ _ _ _ _ _ _ hu => exact absurd hu ht
  | faulted _ _ _ _ _ _ _ he => exact .inr (exec_raises_of_stopped hs he ht)

/-- A step that ends in FAULTED is a fault entry. -/
theorem step_raises_of_faulted {s t : State} (hs : s.runState = .running) (h : step s = .next t)
    (ht : t.runState = .faulted) : ∃ c, t = s.raise c ∧ s.MeetsCause c := by
  obtain rfl | hraise := step_halts_or_raises hs h (by simp [ht])
  · simp at ht
  · exact hraise

/-- Settles O32: a step that ends in FAULTED is a fault entry, which writes STATUS alone. -/
theorem faultsArePrecise : Obligations.FaultsArePrecise := by
  unfold Obligations.FaultsArePrecise
  intro s t hs h ht
  obtain ⟨c, rfl, -⟩ := step_raises_of_faulted hs h ht
  rw [State.raise_causeField]
  exact ⟨s.raise_faultedOnly c, c.code_range⟩

/-- Settles O33: an executed instruction leaves STEPS to the count, and the halt and the fault entries leave it. -/
theorem stepsCountsExecutedInstructions : Obligations.StepsCountsExecutedInstructions := by
  unfold Obligations.StepsCountsExecutedInstructions
  refine fun s t hs h => ⟨fun ht => ?_, fun ht => ?_⟩
  · obtain ⟨op, arg, i, u, -, -, he, -, rfl⟩ := step_of_running hs h ht
    rw [State.countStep_steps_toNat, (exec_steps_config he).1]
  · obtain rfl | ⟨c, rfl, -⟩ := step_halts_or_raises hs h ht
    · rfl
    · rfl

/-- Settles O27: the refusal is decode's, and a refusal writes STATUS alone. -/
theorem operandAbove7Faults : Obligations.OperandAbove7Faults := by
  unfold Obligations.OperandAbove7Faults
  exact fun _ _ _ hp hop harg => hp.faultedOnly_of_error (decode_operand_above_7 hop harg)

/-- Settles O30: the cap is tested before the fetch, and no other fault entry records its cause. -/
theorem stepCapFaults : Obligations.StepCapFaults := by
  unfold Obligations.StepCapFaults
  refine ⟨fun s hs hn hl => ⟨_, step_of_stepCap_reached hs hn hl, s.raise_faultedOnly .stepLimit⟩,
    fun s t hs hcap h ht hcause => ?_⟩
  obtain ⟨c, rfl, -, hlimit⟩ := step_raises_of_faulted hs h ht
  rw [State.raise_causeField] at hcause
  simpa [hcap] using hlimit (Cause.eq_stepLimit_of_code hcause)

/-! ### The out at pc -/

/-- The words of opcode 5 with an operand word up to 6 are those of an out with a combo value (30_encoding.md R64). -/
theorem decode_out_of_le_6 {arg : Word} (h : arg.toNat ≤ 6) (s : State) :
    ∃ k v, decode 5#64 arg = .ok (.out k) ∧ s.comboValue k = some v := by
  obtain ⟨d, rfl⟩ := exists_wordOf_of_le_7 (Nat.le_succ_of_le h)
  have hd : d ≠ 7#3 := by
    rintro rfl
    exact absurd h (by decide)
  have hw := comboOf_wellFormed_of_ne hd
  cases hv : s.comboValue (comboOf d) with
  | none => simp [State.comboValue_eq_none.mp hv, Combo.wellFormed] at hw
  | some v => exact ⟨comboOf d, v, decode_word_of_wellFormed (o := .out) hw, hv⟩

/-- An out at pc with OUT_LEN = OUT_CAP ends the run in OutputOverflow (44_output.md R151). -/
theorem State.AtPair.step_of_full_out {s : State} {arg : Word} (hp : s.AtPair 5#64 arg) (harg : arg.toNat ≤ 6)
    (hfull : s.config.outCap = some s.outLen) : step s = .next (s.raise .outputOverflow) := by
  obtain ⟨k, v, hd, hv⟩ := decode_out_of_le_6 harg s
  rw [hp.step_of_ok hd, exec_out_of_full hv hfull, retire_stopped (by simp)]

/-- Settles O29: the capacity test of out, and no other fault entry records its cause. -/
theorem fullBufferFaultsOut : Obligations.FullBufferFaultsOut := by
  unfold Obligations.FullBufferFaultsOut
  refine ⟨fun s arg hp harg hfull => ⟨_, hp.step_of_full_out harg hfull, s.raise_faultedOnly .outputOverflow⟩,
    fun s t hs hcap h ht hcause => ?_⟩
  obtain ⟨c, rfl, hoverflow, -⟩ := step_raises_of_faulted hs h ht
  rw [State.raise_causeField] at hcause
  simpa [hcap] using hoverflow (Cause.eq_outputOverflow_of_code hcause)

/-! ### The order of the tests -/

/-- An out is encoded under the opcode word 5 alone (30_encoding.md R67). -/
theorem opcode_of_decode_out {op arg : Word} {k : Combo} (h : decode op arg = .ok (.out k)) : op = 5#64 :=
  (congrArg Prod.fst (encode_of_decode_ok h)).symm

/-- A decoded instruction that is no out on a full buffer leaves CORE running (40_execution_loop.md R88). -/
theorem State.AtPair.step_running_of_room {s t : State} {op arg : Word} {i : Instr} (hp : s.AtPair op arg)
    (hd : decode op arg = .ok i) (hroom : ¬(op = 5#64 ∧ s.config.outCap = some s.outLen)) (h : step s = .next t) :
    t.runState = .running := by
  obtain ⟨u, he, heffect⟩ := exec_effect i s
  have hu : u.runState = .running := by
    obtain ⟨hs, -⟩ := hp
    cases heffect with
    | wrote => simpa using hs
    | jumped => exact hs
    | fellThrough => exact hs
    | appended => exact hs
    | overflowed k hi _ hfull =>
      exact absurd ⟨opcode_of_decode_out (hi ▸ hd), State.outFull_eq_true.mp hfull⟩ hroom
    | reserved hw => simp [wellFormed_of_decode_ok hd] at hw
  rw [hp.step_of_ok hd, he, retire_running hu] at h
  exact Host.Outcome.next.inj h ▸ hu

/-- A step that answers a fault entry ends in FAULTED with its cause. -/
theorem faulted_of_step_eq_raise {s t : State} {c : Cause} (h : step s = .next t) (hc : step s = .next (s.raise c)) :
    t.runState = .faulted ∧ t.causeField = c.code := by
  obtain rfl := Host.Outcome.next.inj (h.symm.trans hc)
  exact ⟨s.raise_runState c, s.raise_causeField c⟩

/-- Past the halt test and the cap, the step meets a pair of words. -/
theorem State.exists_atPair {s : State} (hs : s.runState = .running) (hn : s.pc.toNat + 1 < s.n)
    (hl : s.config.stepCap ≠ some s.steps.toNat) :
    ∃ op arg, s.imemRead s.pc.toNat = some op ∧ s.imemRead (s.pc.toNat + 1) = some arg ∧ s.AtPair op arg := by
  obtain ⟨op, arg, hf⟩ := State.fetchPair_isSome hn
  obtain ⟨hop, harg⟩ := State.fetchPair_eq_some.mp hf
  exact ⟨op, arg, hop, harg, hs, hl, hop, harg⟩

/-- Settles O31: each outcome is that of its own test once the tests before it are passed. -/
theorem faultPriority : Obligations.FaultPriority := by
  unfold Obligations.FaultPriority
  intro s t hs h
  split_ifs with hn hl
  · rw [step_of_no_operand_word hs hn] at h
    exact Host.Outcome.next.inj h ▸ s.halt_runState
  · exact faulted_of_step_eq_raise h (step_of_stepCap_reached hs (by omega) hl)
  · obtain ⟨op, arg, hop0, harg0, hp⟩ := State.exists_atPair hs (by omega) hl
    refine ⟨op, arg, hop0, harg0, ?_⟩
    split_ifs with hop harg hcombo hfull
    · exact faulted_of_step_eq_raise h (hp.step_of_error (decode_opcode_above_7 hop arg))
    · exact faulted_of_step_eq_raise h (hp.step_of_error (decode_operand_above_7 (by omega) harg))
    · exact faulted_of_step_eq_raise h (hp.step_of_error (decode_operand_eq_7 hcombo.1 hcombo.2))
    · obtain rfl : op = 5#64 := BitVec.eq_of_toNat_eq hfull.1
      have harg6 : arg.toNat ≠ 7 := fun h7 => hcombo ⟨rfl, h7⟩
      exact faulted_of_step_eq_raise h (hp.step_of_full_out (by omega) hfull.2)
    · obtain ⟨i, hd⟩ := exists_decode_ok (by omega) (by omega) hcombo
      exact hp.step_running_of_room hd (fun hout => hfull ⟨congrArg BitVec.toNat hout.1, hout.2⟩) h

end Sys2Proof.Machine
end

section
/-! # PROOFS. The moves of the host (70_reset_and_hazards.md R190 to R196) -/

namespace Sys2Proof.Machine

/-! ### Launch and Reset -/

/-- A Launch is accepted from a stopped CORE and within IMEM_CAP, and then writes all run state
(70_reset_and_hazards.md R191, R192). -/
theorem State.launch_eq_next {s t : State} {a b c : Word} {prog : List Word} :
    s.launch a b c prog = .next t ↔
      s.runState ≠ .running ∧ prog.length ≤ s.config.imemCap ∧ t = s.launched a b c prog := by
  unfold State.launch
  by_cases hs : s.runState = .running
  · simp [hs]
  · by_cases hlen : s.config.imemCap < prog.length
    · simp [hs, hlen]
    · rw [if_neg (mt s.running_eq_true.mp hs), if_neg hlen, Host.Outcome.next.injEq]
      exact ⟨fun h => ⟨hs, Nat.not_lt.mp hlen, h.symm⟩, fun ⟨_, _, h⟩ => h.symm⟩

@[simp] theorem State.launched_runState (s : State) (a b c : Word) (prog : List Word) :
    (s.launched a b c prog).runState = .running :=
  runState_ofCode_statusOf _ _

@[simp] theorem State.launched_causeField (s : State) (a b c : Word) (prog : List Word) :
    (s.launched a b c prog).causeField = 0#3 :=
  cause_statusOf _ _

/-- Nothing of the state before a Launch but the parameters is left after it (70_reset_and_hazards.md R196). -/
theorem State.launched_congr {s s' : State} (h : s.config = s'.config) (a b c : Word) (prog : List Word) :
    s'.launched a b c prog = s.launched a b c prog := by
  simp [State.launched, h]

@[simp] theorem State.assertReset_runState (s : State) : s.assertReset.runState = .idle := rfl

@[simp] theorem State.assertReset_causeField (s : State) : s.assertReset.causeField = 0#3 := by
  simp [State.causeField, State.assertReset, State.reset]

/-- A, B and C hold no value while IDLE, so a read of them is refused (10_state.md R34). -/
theorem State.hostRead_reg_of_idle {s : State} (h : s.runState = .idle) (r : Reg) :
    s.hostRead (.reg r) = .error .readOfNoValue := by
  simp [State.hostRead, State.running, h]

/-- Settles O44: Reset writes every field, and STATE = IDLE refuses the reads of A, B and C. -/
theorem resetLeavesEmptyIdle : Obligations.ResetLeavesEmptyIdle := by
  unfold Obligations.ResetLeavesEmptyIdle
  exact fun s => ⟨rfl, rfl, rfl, s.assertReset_runState, s.assertReset_causeField, rfl, rfl,
    State.hostRead_reg_of_idle s.assertReset_runState⟩

/-- Settles O45: the state of an accepted Launch, field by field. -/
theorem launchStartsRun : Obligations.LaunchStartsRun := by
  unfold Obligations.LaunchStartsRun
  exact fun s a b c prog hs hlen => ⟨s.launched a b c prog, State.launch_eq_next.mpr ⟨hs, hlen, rfl⟩, rfl, rfl, rfl,
    rfl, fun _ => rfl, rfl, rfl, rfl, s.launched_runState a b c prog, s.launched_causeField a b c prog, rfl⟩

/-- Settles O46: the two tests of Launch, STATE first. -/
theorem launchRefusals : Obligations.LaunchRefusals := by
  unfold Obligations.LaunchRefusals
  refine fun s a b c prog => ⟨fun hs => State.launch_of_running hs a b c prog, fun hs hlen => ?_⟩
  rw [State.launch, if_neg (mt s.running_eq_true.mp hs), if_pos hlen]

/-- Settles O47: both Launches write the same state, so the runs are the same run. -/
theorem runsAreIndependent : Obligations.RunsAreIndependent := by
  unfold Obligations.RunsAreIndependent
  intro s s' t a b c prog hconfig hs' h
  obtain ⟨-, hlen, rfl⟩ := State.launch_eq_next.mp h
  rw [hconfig] at hlen
  exact ⟨_, State.launch_eq_next.mpr ⟨hs', hlen, (State.launched_congr hconfig a b c prog).symm⟩, fun _ => rfl⟩

/-! ### Reads and results -/

/-- STATUS as a number: STATE in [1:0] and CAUSE above it, with the bits [7:5] 0 (10_state.md R30). -/
theorem statusOf_toNat (r : RunState) (c : BitVec 3) : (statusOf r c).toNat = c.toNat * 4 + r.code.toNat := by
  revert c
  cases r <;> decide

/-- The host reads STATUS at any time, its two fields packed with the bits [7:5] 0 (10_state.md R30). -/
theorem State.hostRead_status (s : State) :
    ∃ w, s.hostRead .status = .ok w ∧ w.toNat = s.causeField.toNat * 4 + s.runState.code.toNat := by
  refine ⟨_, rfl, ?_⟩
  rw [BitVec.toNat_setWidth_of_le (by decide), State.statusRead, statusOf_toNat]

/-- While RUNNING the host reads STATUS alone (70_reset_and_hazards.md R193). -/
theorem State.hostRead_of_running {s : State} (hs : s.runState = .running) {r : HostReg} (hr : r ≠ .status) :
    s.hostRead r = .error .readWhileRunning := by
  cases r with
  | status => exact absurd rfl hr
  | reg | pc | outLen | steps | outEntry => simp [State.hostRead, hs]

/-- OUT_LEN where it fits its 64-bit register (10_state.md R32). -/
theorem State.hostRead_outLen {s : State} (hs : s.runState ≠ .running) (hlen : s.outLen < 2 ^ 64) :
    ∃ w, s.hostRead .outLen = .ok w ∧ w.toNat = s.outLen := by
  refine ⟨BitVec.ofNat 64 s.outLen, ?_, Nat.mod_eq_of_lt hlen⟩
  rw [State.hostRead, if_neg (mt s.running_eq_true.mp hs), State.outLenRead, if_pos hlen]

/-- An entry of OUT below OUT_LEN, zero-extended (10_state.md R32). -/
theorem State.hostRead_outEntry {s : State} (hs : s.runState ≠ .running) {i : Nat} {d : Digit}
    (hi : s.outEntry i = some d) : s.hostRead (.outEntry i) = .ok (zext64 d) := by
  simp [State.hostRead, hs, hi]

/-- A read at or past OUT_LEN is refused (10_state.md R32). -/
theorem State.hostRead_past_outLen {s : State} (hs : s.runState ≠ .running) {i : Nat} (hi : s.outLen ≤ i) :
    s.hostRead (.outEntry i) = .error .readPastOutput := by
  have hnone : s.outEntry i = none := List.getElem?_eq_none hi
  simp [State.hostRead, hs, hnone]

/-- Once a run has ended the host reads A, B and C (70_reset_and_hazards.md R193). -/
theorem State.hostRead_reg_of_ended {s : State} (hs : s.runState = .halted ∨ s.runState = .faulted) (r : Reg) :
    s.hostRead (.reg r) = .ok (s.reg r) := by
  obtain hs | hs := hs
  · simp [State.hostRead, State.running, hs]
  · simp [State.hostRead, State.running, hs]

/-- Settles O48: the reads one by one, each decided by STATE alone. -/
theorem hostReads : Obligations.HostReads := by
  unfold Obligations.HostReads
  refine fun s => ⟨?_, fun hs _ => State.hostRead_of_running hs, fun hs => ⟨?_, ?_, State.hostRead_outLen hs,
    fun _ => State.hostRead_past_outLen hs, fun i d hi => ⟨_, State.hostRead_outEntry hs hi, zext64_toNat d⟩⟩,
    State.hostRead_reg_of_ended, State.hostRead_reg_of_idle⟩
  · obtain ⟨w, hread, hw⟩ := s.hostRead_status
    have hcause := s.causeField.isLt
    have hstate := s.runState.code.isLt
    exact ⟨w, hread, by omega, by omega, by omega⟩
  · exact if_neg (mt s.running_eq_true.mp hs)
  · exact if_neg (mt s.running_eq_true.mp hs)

/-- Settles O49: the result is read off STATE, and the output sequence is OUT entry by entry. -/
theorem resultOfRun : Obligations.ResultOfRun := by
  unfold Obligations.ResultOfRun
  refine fun s => ⟨fun hs => ⟨s.out.map zext64, ?_, ?_, fun i d hi => ⟨zext64 d, ?_, zext64_toNat d⟩⟩,
    fun hs => ?_, ?_⟩
  · rw [State.result, hs]
  · exact List.length_map zext64
  · rw [List.getElem?_map, ← State.outEntry, hi, Option.map_some]
  · rw [State.result, hs]
  · rintro (hs | hs)
    · rw [State.result, hs]
    · rw [State.result, hs]

end Sys2Proof.Machine
end

section
/-! # PROOFS. The invariant of every reached state (10_state.md R26, R28 to R31, R34) -/

namespace Sys2Proof.Machine

/-! ### Reset and Launch -/

/-- STATUS after reset is IDLE with no cause (10_state.md R34). -/
theorem legalStatus_reset : legalStatus State.reset.status = true := by decide

/-- An emptied machine meets the invariant (70_reset_and_hazards.md R190). -/
theorem State.assertReset_inv {s : State} (h : s.config.imemCap ≤ 2 ^ 63) : s.assertReset.Inv := by
  refine ⟨h, Memory.wf_assertReset s, legalStatus_reset, Nat.zero_le _, ?_, fun _ => ⟨rfl, rfl, rfl, rfl⟩⟩
  show withinCap s.config.stepCap 0 = true
  cases s.config.stepCap <;> simp [withinCap]

/-- A machine launched within IMEM_CAP meets the invariant (70_reset_and_hazards.md R191). -/
theorem State.launched_inv {s : State} (h : s.config.imemCap ≤ 2 ^ 63) (a b c : Word) {prog : List Word}
    (hlen : prog.length ≤ s.config.imemCap) : (s.launched a b c prog).Inv := by
  refine ⟨h, Memory.wf_launched s a b c hlen, legalStatus_running, Nat.zero_le _, ?_, fun hidle => ?_⟩
  · show withinCap s.config.stepCap 0 = true
    cases s.config.stepCap <;> simp [withinCap]
  · simp at hidle

/-- An accepted Launch keeps the invariant. -/
theorem State.Inv.launch {s t : State} {a b c : Word} {prog : List Word} (hinv : s.Inv)
    (h : s.launch a b c prog = .next t) : t.Inv := by
  obtain ⟨-, hlen, rfl⟩ := State.launch_eq_next.mp h
  exact State.launched_inv hinv.1 a b c hlen

/-- Settles O39: the state after reset is what Reset leaves of it. -/
theorem resetMeetsInvariant : Obligations.ResetMeetsInvariant :=
  State.assertReset_inv (s := State.reset) (Nat.le_refl _)

/-- Settles O41: both moves write the whole run state, within the parameters that the invariant admits. -/
theorem hostMovesKeepInvariant : Obligations.HostMovesKeepInvariant := by
  unfold Obligations.HostMovesKeepInvariant
  exact fun s hinv => ⟨State.assertReset_inv hinv.1, fun _ _ _ _ _ => hinv.launch⟩

/-! ### A step -/

/-- A write of a legal STATUS other than IDLE keeps the invariant, as the halt and the fault entries do. -/
theorem State.Inv.setStatus {s : State} (hinv : s.Inv) {r : RunState} {c : BitVec 3} (hr : r ≠ .idle)
    (hlegal : legalStatus (statusOf r c) = true) : (s.setStatus r c).Inv := by
  obtain ⟨hcap, hwf, -, hpc, hsteps, -⟩ := hinv
  refine ⟨hcap, hwf, hlegal, hpc, hsteps, fun hidle => absurd ?_ hr⟩
  rwa [State.setStatus_runState] at hidle

/-- Every instruction keeps the memories within their capacities (20_memory.md R40). -/
theorem exec_memory_wf {i : Instr} {s t : State} (h : exec i s = .next t)
    (hwf : Memory.wf s.config s.imem s.out = true) : Memory.wf t.config t.imem t.out = true := by
  cases exec_next_effect h with
  | wrote => simpa using hwf
  | jumped => exact hwf
  | fellThrough => exact hwf
  | appended _ v _ room => exact Memory.wf_appendOut v hwf room
  | overflowed => exact hwf
  | reserved => exact hwf

/-- Every instruction leaves a legal STATUS (10_state.md R30). -/
theorem exec_legalStatus {i : Instr} {s t : State} (h : exec i s = .next t) (hlegal : legalStatus s.status = true) :
    legalStatus t.status = true := by
  cases exec_next_effect h with
  | wrote => simpa using hlegal
  | jumped => exact hlegal
  | fellThrough => exact hlegal
  | appended => exact hlegal
  | overflowed => exact legalStatus_faulted _
  | reserved => exact legalStatus_faulted _

/-- An executed instruction leaves pc at an operand or at most two words on, within max(N, 7) (10_state.md R26). -/
theorem exec_pcInRange {i : Instr} {s t : State} (hinv : s.Inv) (hn : s.pc.toNat + 1 < s.n)
    (he : exec i s = .next t) (ht : t.runState = .running) : t.PcInRange := by
  have hlen : t.n = s.n := congrArg List.length (exec_imem he)
  unfold State.PcInRange
  obtain ⟨k, -, -, hpc⟩ | ⟨-, hpc⟩ := exec_pc_of_running he ht
  · rw [hpc, wordOf_toNat]
    omega
  · rw [hpc, hinv.advance_pc_toNat hn]
    omega

/-- A count below its cap may grow by 1. -/
theorem withinCap_of_le_succ {cap : Option Nat} {count count' : Nat} (h : withinCap cap count = true)
    (hne : cap ≠ some count) (hle : count' ≤ count + 1) : withinCap cap count' = true := by
  cases cap with
  | none => rfl
  | some c =>
    have hc : c ≠ count := fun heq => hne (congrArg some heq)
    simp only [withinCap, decide_eq_true_eq] at h ⊢
    omega

/-- An instruction that ran where no cap was reached is counted within the cap (10_state.md R31). -/
theorem exec_countStep_stepsInRange {i : Instr} {s t : State} (hinv : s.Inv)
    (hl : s.config.stepCap ≠ some s.steps.toNat) (he : exec i s = .next t) : t.countStep.StepsInRange := by
  obtain ⟨-, -, -, -, hsteps, -⟩ := hinv
  obtain ⟨hsame, hconfig⟩ := exec_steps_config he
  unfold State.StepsInRange
  rw [State.countStep_config, hconfig]
  refine withinCap_of_le_succ hsteps hl ?_
  rw [State.countStep_steps_toNat, hsame]
  exact Nat.min_le_left _ _

/-- An instruction that leaves CORE running keeps the invariant, its count included. -/
theorem State.Inv.countStep_of_exec {s t : State} {op arg : Word} {i : Instr} (hinv : s.Inv) (hp : s.AtPair op arg)
    (he : exec i s = .next t) (ht : t.runState = .running) : t.countStep.Inv := by
  obtain ⟨-, hl, -, harg⟩ := hp
  have hpc := exec_pcInRange hinv (State.lt_n_of_imemRead harg) he ht
  have hsteps := exec_countStep_stepsInRange hinv hl he
  obtain ⟨hcap, hwf, hlegal, -⟩ := hinv
  have hwf' : Memory.wf t.config t.imem t.out = true := exec_memory_wf he hwf
  have hlegal' : legalStatus t.status = true := exec_legalStatus he hlegal
  refine ⟨?_, hwf', hlegal', hpc, hsteps, fun hidle => ?_⟩
  · rwa [State.countStep_config, (exec_steps_config he).2]
  · simp [ht] at hidle

/-- Outside RUNNING, CORE has no step and the state stays as it is (40_execution_loop.md R80). -/
theorem step_of_not_running {s : State} (h : s.runState ≠ .running) : step s = .next s :=
  step_of_issue_stop (if_neg (mt s.running_eq_true.mp h))

theorem State.Inv.step {s t : State} (hinv : s.Inv) (h : step s = .next t) : t.Inv := by
  by_cases hs : s.runState = .running
  · by_cases ht : t.runState = .running
    · obtain ⟨op, arg, i, u, hp, -, he, hu, rfl⟩ := step_of_running hs h ht
      exact hinv.countStep_of_exec hp he hu
    · obtain rfl | ⟨c, rfl, -⟩ := step_halts_or_raises hs h ht
      · exact hinv.setStatus (by decide) legalStatus_halted
      · exact hinv.setStatus (by decide) (legalStatus_faulted c)
  · rw [step_of_not_running hs] at h
    exact Host.Outcome.next.inj h ▸ hinv

/-- Settles O40: a step stays, counts an executed instruction, or writes a legal STATUS. -/
theorem stepKeepsInvariant : Obligations.StepKeepsInvariant := by
  unfold Obligations.StepKeepsInvariant
  exact fun s t => State.Inv.step

/-! ### Every reached state -/

theorem Reached.inv {s : State} (h : Reached s) : s.Inv := by
  induction h with
  | powerOn config hcap => exact State.assertReset_inv (s := { State.reset with config := config }) hcap
  | reset s _ ih => exact State.assertReset_inv ih.1
  | launch s t a b c prog _ hl ih => exact ih.launch hl
  | step s t _ ht ih => exact ih.step ht

/-- The invariant keeps pc far below 2^64 (10_state.md R26). -/
theorem State.Inv.pc_add_two_lt {s : State} (hinv : s.Inv) : s.pc.toNat + 2 < 2 ^ 64 := by
  have hn := hinv.n_le
  obtain ⟨-, -, -, hpc, -⟩ := hinv
  unfold State.PcInRange at hpc
  omega

/-- Settles O42: the invariant, by induction on how the state is reached, and the bound it puts on pc. -/
theorem reachedStatesMeetInvariant : Obligations.ReachedStatesMeetInvariant := by
  unfold Obligations.ReachedStatesMeetInvariant
  exact fun s h => ⟨h.inv, h.inv.pc_add_two_lt⟩

end Sys2Proof.Machine
end

section
/-! # PROOFS. What instructions read and write (10_state.md R22, 30_encoding.md R64, 41_shift.md R104) -/

namespace Sys2Proof

theorem Combo.wellFormed_eq_false {k : Combo} : k.wellFormed = false ↔ k = .reserved := by
  cases k <;> simp [Combo.wellFormed]

end Sys2Proof

namespace Sys2Proof.Machine

/-! ### The reserved forms -/

/-- An ill-formed instruction is a combo instruction with the reserved operand, and raises ReservedCombo
(log entry 10). -/
theorem exec_of_not_wellFormed {i : Instr} (h : i.wellFormed = false) (s : State) :
    exec i s = .next (s.raise (.invalidInstruction .reservedCombo)) := by
  cases i with
  | bxl | jnz | bxc => cases h
  | adv k | bst k | out k | bdv k | cdv k =>
    obtain rfl := Combo.wellFormed_eq_false.mp h
    rfl

/-- Settles O6: each of the five raises ReservedCombo, which writes STATUS alone. -/
theorem reservedFormsRaise : Obligations.ReservedFormsRaise := by
  unfold Obligations.ReservedFormsRaise
  exact fun s i h => ⟨_, exec_of_not_wellFormed h s, s.raise_faultedOnly _⟩

/-! ### Shifts by A itself and by 0 -/

/-- A value is below the power of 2 that it names, so a shift by itself gives 0 (41_shift.md R104). -/
theorem State.shiftInto_by_a (s : State) (d : Reg) : ∃ t, s.shiftInto d (.reg .a) = .next t ∧ t.reg d = 0#64 := by
  obtain ⟨t, ht, hval, -⟩ := State.shiftInto_of_comboValue (s := s) (k := .reg .a) d rfl
  refine ⟨t, ht, BitVec.eq_of_toNat_eq (hval.trans ?_)⟩
  exact Nat.div_eq_of_lt Nat.lt_two_pow_self

theorem State.shiftInto_by_zero (s : State) (d : Reg) : ∃ t, s.shiftInto d (.lit 0#2) = .next t ∧ t.reg d = s.a := by
  obtain ⟨t, ht, hval, -⟩ := State.shiftInto_of_comboValue (s := s) (k := .lit 0#2) d rfl
  exact ⟨t, ht, BitVec.eq_of_toNat_eq (hval.trans (Nat.div_one _))⟩

/-- Settles O8: the two shifts, into each of the three destinations. -/
theorem shiftByItselfAndByZero : Obligations.ShiftByItselfAndByZero := by
  unfold Obligations.ShiftByItselfAndByZero
  exact fun s => ⟨s.shiftInto_by_a .a, s.shiftInto_by_a .b, s.shiftInto_by_a .c, s.shiftInto_by_zero .a,
    s.shiftInto_by_zero .b, s.shiftInto_by_zero .c⟩

/-! ### Writers -/

@[simp] theorem State.jump_reg (s : State) (p : Word) (r : Reg) : (s.jump p).reg r = s.reg r := by cases r <;> rfl
@[simp] theorem State.appendOut_reg (s : State) (v : Digit) (r : Reg) : (s.appendOut v).reg r = s.reg r := by
  cases r <;> rfl
@[simp] theorem State.raise_reg (s : State) (c : Cause) (r : Reg) : (s.raise c).reg r = s.reg r := by cases r <;> rfl

/-- Settles O17: the one effect that writes a register writes one of the instruction's own. -/
theorem registerWriters : Obligations.RegisterWriters := by
  unfold Obligations.RegisterWriters
  intro i s t r h hr
  cases exec_next_effect h with
  | wrote d v hd =>
    have hne : r ≠ d := by
      rintro rfl
      simp [hr] at hd
    rw [State.advance_reg, State.writeReg_reg, if_neg hne]
  | jumped => exact s.jump_reg _ r
  | fellThrough => exact s.advance_reg r
  | appended _ v => exact ((s.appendOut v).advance_reg r).trans (s.appendOut_reg v r)
  | overflowed => exact s.raise_reg _ r
  | reserved => exact s.raise_reg _ r

/-! ### Readers

The outcomes of one instruction are compared from a machine and from the same machine with another value in a
register. -/

/-- What is left of another value in a register after an instruction: nothing if the instruction writes the register. -/
def State.carryReg (t : State) (i : Instr) (r : Reg) (v : Word) : State := if i.writes r then t else t.writeReg r v

/-- The instruction does the same from both machines, and the other value is left where it is not overwritten. -/
def IgnoresReg (i : Instr) (s : State) (r : Reg) (v : Word) : Prop :=
  ∃ t, exec i s = .next t ∧ exec i (s.writeReg r v) = .next (t.carryReg i r v)

/-- A write overwrites the other value or commutes with it. -/
theorem writeReg_advance_carryReg {i : Instr} {d : Reg} (hd : ∀ r, i.writes r = (r == d)) (s : State) (r : Reg)
    (v w : Word) :
    ((s.writeReg r v).writeReg d w).advance = (s.writeReg d w).advance.carryReg i r v := by
  rw [State.carryReg, hd r]
  cases d <;> cases r <;> rfl

/-- A combo operand that does not name the register has the same value whatever the register holds. -/
theorem State.comboValue_writeReg {k : Combo} {r : Reg} (h : k.names r = false) (s : State) (v : Word) :
    (s.writeReg r v).comboValue k = s.comboValue k := by
  cases k with
  | lit w => rfl
  | reg g =>
    have hne : g ≠ r := by
      rintro rfl
      simp [Combo.names] at h
    rw [State.comboValue, State.writeReg_reg, if_neg hne, State.comboValue]
  | reserved => rfl

/-- A legal combo operand that does not name the register has one value on both machines. -/
theorem exists_comboValue_writeReg {k : Combo} {r : Reg} (hw : k.wellFormed = true) (hk : k.names r = false)
    (s : State) (v : Word) : ∃ w, s.comboValue k = some w ∧ (s.writeReg r v).comboValue k = some w := by
  rw [State.comboValue_writeReg hk]
  cases hv : s.comboValue k with
  | some w => exact ⟨w, rfl, rfl⟩
  | none => simp [State.comboValue_eq_none.mp hv, Combo.wellFormed] at hw

/-- The shift family reads A and the register its operand names (41_shift.md R100 to R102). -/
theorem ignoresReg_of_shift {i : Instr} {d : Reg} {k : Combo} (hexec : ∀ s, exec i s = s.shiftInto d k)
    (hd : ∀ r, i.writes r = (r == d)) (hw : k.wellFormed = true) {r : Reg}
    (hr : (r == .a || k.names r) = false) (s : State) (v : Word) : IgnoresReg i s r v := by
  obtain ⟨ha, hk⟩ := Bool.or_eq_false_iff.mp hr
  obtain ⟨w, hv, hv'⟩ := exists_comboValue_writeReg hw hk s v
  have ha' : (s.writeReg r v).reg .a = s.reg .a := by
    rw [State.writeReg_reg, if_neg (Ne.symm (by simpa using ha))]
  refine ⟨_, (hexec s).trans (State.withCombo_of_some hv _), ?_⟩
  rw [hexec, State.shiftInto, State.withCombo_of_some hv', ha']
  exact congrArg _ (writeReg_advance_carryReg hd s r v _)

/-- A well-formed instruction ignores every register it does not read (10_state.md R22). -/
theorem ignoresReg_of_not_reads {i : Instr} {r : Reg} (hw : i.wellFormed = true) (hr : i.reads r = false) (s : State)
    (v : Word) : IgnoresReg i s r v := by
  cases i with
  | adv k => exact ignoresReg_of_shift (fun _ => rfl) (fun _ => rfl) hw hr s v
  | bdv k => exact ignoresReg_of_shift (fun _ => rfl) (fun _ => rfl) hw hr s v
  | cdv k => exact ignoresReg_of_shift (fun _ => rfl) (fun _ => rfl) hw hr s v
  | bxl k =>
    cases r with
    | a | c => exact ⟨_, rfl, rfl⟩
    | b => cases hr
  | bst k =>
    obtain ⟨w, hv, hv'⟩ := exists_comboValue_writeReg hw hr s v
    refine ⟨_, State.withCombo_of_some hv _, (State.withCombo_of_some hv' _).trans ?_⟩
    exact congrArg _ (writeReg_advance_carryReg (fun _ => rfl) s r v _)
  | jnz k =>
    cases r with
    | a => cases hr
    | b | c =>
      by_cases ha : s.a = 0#64
      · exact ⟨_, exec_jnz_of_a_eq_zero k ha, exec_jnz_of_a_eq_zero k ha⟩
      · exact ⟨_, exec_jnz_of_a_ne_zero k ha, exec_jnz_of_a_ne_zero k ha⟩
  | bxc k =>
    cases r with
    | a => exact ⟨_, rfl, rfl⟩
    | b | c => cases hr
  | out k =>
    obtain ⟨w, hv, hv'⟩ := exists_comboValue_writeReg hw hr s v
    have hcap : (s.writeReg r v).config.outCap = s.config.outCap := by rw [State.writeReg_config]
    have hlen : (s.writeReg r v).outLen = s.outLen := by rw [State.outLen, State.writeReg_out, State.outLen]
    by_cases hfull : s.config.outCap = some s.outLen
    · refine ⟨_, exec_out_of_full hv hfull, (exec_out_of_full hv' (by rw [hcap, hlen, hfull])).trans ?_⟩
      cases r <;> rfl
    · refine ⟨_, exec_out_of_room hv hfull, (exec_out_of_room hv' (by rwa [hcap, hlen])).trans ?_⟩
      cases r <;> rfl

/-- Settles O18: the other value is overwritten, or it is all that the outcomes differ in. -/
theorem unreadRegisterDoesNotMatter : Obligations.UnreadRegisterDoesNotMatter := by
  unfold Obligations.UnreadRegisterDoesNotMatter
  intro i s t r v hw hr h
  obtain ⟨u, hu, hother⟩ := ignoresReg_of_not_reads hw hr s v
  obtain rfl := Host.Outcome.next.inj (h.symm.trans hu)
  refine ⟨fun hwrites => ?_, fun hwrites => ?_⟩
  · rw [hother, State.carryReg, hwrites, if_neg Bool.false_ne_true]
  · rw [hother, State.carryReg, hwrites, if_pos rfl]

end Sys2Proof.Machine
end

section
/-! # PROOFS. Runs of any number of steps (40_execution_loop.md R80 to R91, 43_control.md R140, R141) -/

namespace Sys2Proof.Machine

/-- A run of one more step takes a step and runs on. -/
theorem exists_step_of_runSteps_succ {n : Nat} {s t : State} (h : runSteps (n + 1) s = .next t) :
    ∃ u, step s = .next u ∧ runSteps n u = .next t := by
  obtain ⟨u, hu, -⟩ := step_case s
  exact ⟨u, hu, runSteps_succ n s u hu ▸ h⟩

/-! ### Stopped states -/

theorem runSteps_of_not_running {s : State} (hs : s.runState ≠ .running) (n : Nat) : runSteps n s = .next s := by
  induction n with
  | zero => exact runSteps_zero s
  | succ n ih => rw [runSteps_succ n s s (step_of_not_running hs), ih]

/-- Settles O37: a stopped state is its own next state, so it is so after any number of steps. -/
theorem stoppedStatesStay : Obligations.StoppedStatesStay := by
  unfold Obligations.StoppedStatesStay
  exact fun n s hs => runSteps_of_not_running hs n

/-! ### The entries of OUT -/

/-- An instruction keeps the entries of OUT (20_memory.md R43). -/
theorem exec_out_prefix {i : Instr} {s t : State} (h : exec i s = .next t) : s.out <+: t.out := by
  cases exec_next_effect h with
  | wrote => simp
  | jumped => exact List.prefix_refl _
  | fellThrough => exact List.prefix_refl _
  | appended => exact List.prefix_append _ _
  | overflowed => exact List.prefix_refl _
  | reserved => exact List.prefix_refl _

/-- A step keeps the entries of OUT (20_memory.md R43). -/
theorem step_out_prefix {s t : State} (h : step s = .next t) : s.out <+: t.out := by
  cases step_next_case h with
  | stopped => exact List.prefix_refl _
  | halts => exact List.prefix_refl _
  | limit => exact List.prefix_refl _
  | invalid => exact List.prefix_refl _
  | ran _ _ _ u _ _ _ he => exact exec_out_prefix (t := u) he
  | faulted _ _ _ _ _ _ _ he => exact exec_out_prefix he

/-- Settles O21: every step keeps the entries, by induction on the number of steps. -/
theorem outEntriesPersist : Obligations.OutEntriesPersist := by
  unfold Obligations.OutEntriesPersist
  intro n
  induction n with
  | zero =>
    intro s t h
    obtain rfl := Host.Outcome.next.inj h
    exact List.prefix_refl _
  | succ n ih =>
    intro s t h
    obtain ⟨u, hstep, hrun⟩ := exists_step_of_runSteps_succ h
    exact (step_out_prefix hstep).trans (ih u t hrun)

/-! ### Taken jumps -/

theorem decode_jnz (k : Digit) : decode 3#64 (zext64 k) = .ok (.jnz k) :=
  decode_word_of_wellFormed (o := .jnz) rfl

/-- A taken jnz at pc jumps to its literal and is counted (43_control.md R140). -/
theorem State.AtPair.step_of_taken_jnz {s : State} {k : Digit} (hp : s.AtPair 3#64 (zext64 k)) (ha : s.a ≠ 0#64) :
    step s = .next (s.jump (literalValue k)).countStep := by
  have hs : (s.jump (literalValue k)).runState = .running := hp.1
  rw [hp.step_of_ok (decode_jnz k), exec_jnz_of_a_ne_zero k ha, retire_running hs]

/-- Settles O35: the jump leaves CORE running at its target, where there is no operand word. -/
theorem jumpPastEndHaltsNext : Obligations.JumpPastEndHaltsNext := by
  unfold Obligations.JumpPastEndHaltsNext
  intro s k hp ha hk
  have hs : (s.jump (literalValue k)).countStep.runState = .running := hp.1
  have hn : s.n ≤ (literalValue k).toNat + 1 := by rwa [literalValue_toNat]
  refine ⟨(s.jump (literalValue k)).countStep.halt, ?_, State.halt_runState _, literalValue_toNat k⟩
  rw [runSteps_succ 1 _ _ (hp.step_of_taken_jnz ha), runSteps_succ 0 _ _ (step_of_no_operand_word hs hn),
    runSteps_zero]

/-- Settles O36: each step lands on the same jnz with A still not zero, by induction on the number of steps. -/
theorem jumpToItselfNeverStops : Obligations.JumpToItselfNeverStops := by
  unfold Obligations.JumpToItselfNeverStops
  intro s k hp hpc ha hcap n
  induction n generalizing s with
  | zero => exact ⟨s, runSteps_zero s, hp.1, rfl⟩
  | succ n ih =>
    have hstay : (s.jump (literalValue k)).countStep.pc = s.pc := hpc.symm
    have hp' : (s.jump (literalValue k)).countStep.AtPair 3#64 (zext64 k) := by
      obtain ⟨hs, -, hop, harg⟩ := hp
      refine ⟨hs, by simp [hcap], ?_, ?_⟩
      · rwa [hstay]
      · rwa [hstay]
    obtain ⟨t, hrun, ht, htpc⟩ := ih _ hp' rfl ha hcap
    exact ⟨t, (runSteps_succ n _ _ (hp.step_of_taken_jnz ha)).trans hrun, ht, htpc.trans hstay⟩

/-! ### What a step reads of IMEM and STEP_CAP

A step is compared with the step of the same machine under another program and another cap. -/

/-- The state with another program in IMEM and another step cap. -/
def State.withProgram (s : State) (imem : List Word) (cap : Option Nat) : State :=
  { s with imem := imem, config := { s.config with stepCap := cap } }

/-- The next state of an outcome changed. -/
def mapNext (f : State → State) (o : Host.Outcome State Fault Refusal) : Host.Outcome State Fault Refusal :=
  match o with
  | .next t => .next (f t)
  | .fault r => .fault r
  | .refused r => .refused r

/-- A combo operand reads neither IMEM nor STEP_CAP. -/
theorem State.withCombo_withProgram {s : State} {imem : List Word} {cap : Option Nat}
    {run run' : Word → Host.Outcome State Fault Refusal} (k : Combo)
    (h : ∀ v, run' v = mapNext (·.withProgram imem cap) (run v)) :
    (s.withProgram imem cap).withCombo k run' = mapNext (·.withProgram imem cap) (s.withCombo k run) := by
  cases k with
  | lit v => exact h _
  | reg r => exact h (s.reg r)
  | reserved => rfl

/-- The shift family reads neither IMEM nor STEP_CAP. -/
theorem State.shiftInto_withProgram (s : State) (imem : List Word) (cap : Option Nat) (d : Reg) (k : Combo) :
    (s.withProgram imem cap).shiftInto d k = mapNext (·.withProgram imem cap) (s.shiftInto d k) := by
  refine State.withCombo_withProgram k fun v => ?_
  cases d <;> rfl

/-- No instruction reads IMEM or STEP_CAP (20_memory.md R41, 40_execution_loop.md R82). -/
theorem exec_withProgram (s : State) (imem : List Word) (cap : Option Nat) (i : Instr) :
    exec i (s.withProgram imem cap) = mapNext (·.withProgram imem cap) (exec i s) := by
  cases i with
  | adv k => exact s.shiftInto_withProgram imem cap .a k
  | bxl k => rfl
  | bst k => exact State.withCombo_withProgram k fun v => rfl
  | jnz k =>
    by_cases ha : s.a = 0#64
    · rw [exec_jnz_of_a_eq_zero k ha, exec_jnz_of_a_eq_zero (s := s.withProgram imem cap) k ha]
      rfl
    · rw [exec_jnz_of_a_ne_zero k ha, exec_jnz_of_a_ne_zero (s := s.withProgram imem cap) k ha]
      rfl
  | bxc k => rfl
  | out k =>
    refine State.withCombo_withProgram k fun v => ?_
    have hfull : (s.withProgram imem cap).outFull = s.outFull := rfl
    rw [hfull]
    cases s.outFull <;> rfl
  | bdv k => exact s.shiftInto_withProgram imem cap .b k
  | cdv k => exact s.shiftInto_withProgram imem cap .c k

/-- The count of R88 reads neither IMEM nor STEP_CAP. -/
theorem retire_withProgram (imem : List Word) (cap : Option Nat) (t : State) :
    retire (.next (t.withProgram imem cap)) = mapNext (·.withProgram imem cap) (retire (.next t)) := by
  by_cases ht : t.runState = .running
  · rw [retire_running ht, retire_running (t := t.withProgram imem cap) ht]
    rfl
  · rw [retire_stopped ht, retire_stopped (t := t.withProgram imem cap) ht]
    rfl

/-- A step reads no more of IMEM than N and the two words at pc, and no more of STEP_CAP than whether STEPS equals it
(20_memory.md R41, 40_execution_loop.md R81, R82). -/
theorem step_withProgram {s : State} {imem : List Word} {cap : Option Nat} (hlen : imem.length = s.n)
    (hop : imem[s.pc.toNat]? = s.imemRead s.pc.toNat) (harg : imem[s.pc.toNat + 1]? = s.imemRead (s.pc.toNat + 1))
    (hcap : cap = some s.steps.toNat ↔ s.config.stepCap = some s.steps.toNat) :
    step (s.withProgram imem cap) = mapNext (·.withProgram imem cap) (step s) := by
  have atPair {op arg : Word} (hp : s.AtPair op arg) : (s.withProgram imem cap).AtPair op arg := by
    obtain ⟨hs, hl, h0, h1⟩ := hp
    exact ⟨hs, fun h => hl (hcap.mp h), hop.trans h0, harg.trans h1⟩
  obtain ⟨t, -, hcase⟩ := step_case s
  cases hcase with
  | stopped hs =>
    rw [step_of_not_running hs, step_of_not_running (s := s.withProgram imem cap) hs]
    rfl
  | halts hs hn =>
    rw [step_of_no_operand_word hs hn, step_of_no_operand_word (s := s.withProgram imem cap) hs (hlen.trans_le hn)]
    rfl
  | limit hs hn hl =>
    rw [step_of_stepCap_reached hs hn hl,
      step_of_stepCap_reached (s := s.withProgram imem cap) hs (hn.trans_eq hlen.symm) (hcap.mpr hl)]
    rfl
  | invalid op arg r _ hp hd =>
    rw [hp.step_of_error hd, (atPair hp).step_of_error hd]
    rfl
  | ran op arg i t _ hp hd he | faulted op arg i t _ hp hd he =>
    rw [hp.step_of_ok hd, (atPair hp).step_of_ok hd, exec_withProgram, he]
    exact retire_withProgram imem cap t

/-- No step changes the parameters (70_reset_and_hazards.md R198). -/
theorem step_config {s t : State} (h : step s = .next t) : t.config = s.config := by
  cases step_next_case h with
  | stopped => rfl
  | halts => rfl
  | limit => rfl
  | invalid => rfl
  | ran _ _ _ _ _ _ _ he => exact (exec_steps_config he).2
  | faulted _ _ _ _ _ _ _ he => exact (exec_steps_config he).2

/-- Settles O22: the word is neither of the two at pc, and replacing it leaves N. -/
theorem unfetchedWordDoesNotMatter : Obligations.UnfetchedWordDoesNotMatter := by
  unfold Obligations.UnfetchedWordDoesNotMatter
  intro s t j w hj0 hj1 h
  have hstep := step_withProgram (s := s) (imem := s.imem.set j w) (cap := s.config.stepCap) List.length_set
    (List.getElem?_set_ne hj0) (List.getElem?_set_ne hj1) Iff.rfl
  calc step (s.withImemWord j w) = mapNext (·.withProgram (s.imem.set j w) s.config.stepCap) (step s) := hstep
    _ = .next (t.withProgram (t.imem.set j w) t.config.stepCap) := by rw [h, step_imem h, step_config h, mapNext]
    _ = .next (t.withImemWord j w) := rfl

/-! ### A capped run -/

/-- A step adds at most 1 to STEPS (40_execution_loop.md R88). -/
theorem step_steps_le {s t : State} (h : step s = .next t) : t.steps.toNat ≤ s.steps.toNat + 1 := by
  by_cases hs : s.runState = .running
  · obtain ⟨hcount, hkeep⟩ := stepsCountsExecutedInstructions s t hs h
    by_cases ht : t.runState = .running
    · exact (hcount ht).trans_le (Nat.min_le_left _ _)
    · exact hkeep ht ▸ Nat.le_succ _
  · rw [step_of_not_running hs] at h
    exact Host.Outcome.next.inj h ▸ Nat.le_succ _

/-- A step under a cap that it does not meet is the uncapped step (40_execution_loop.md R82). -/
theorem step_withStepCap {s t : State} {c : Nat} (hcap : s.config.stepCap = none) (hlt : s.steps.toNat < c)
    (h : step s = .next t) : step (s.withStepCap (some c)) = .next (t.withStepCap (some c)) := by
  have hc : some c = some s.steps.toNat ↔ s.config.stepCap = some s.steps.toNat := by
    simp [hcap, Nat.ne_of_gt hlt]
  calc step (s.withStepCap (some c)) = mapNext (·.withProgram s.imem (some c)) (step s) :=
        step_withProgram rfl rfl rfl hc
    _ = .next (t.withProgram t.imem (some c)) := by rw [h, step_imem h, mapNext]
    _ = .next (t.withStepCap (some c)) := rfl

/-- Settles O43: step by step, with the distance from STEPS to the cap going down by at most 1 each. -/
theorem cappedRunAgreesWithUncapped : Obligations.CappedRunAgreesWithUncapped := by
  unfold Obligations.CappedRunAgreesWithUncapped
  intro n c
  induction n with
  | zero =>
    intro s t _ _ h
    obtain rfl := Host.Outcome.next.inj h
    exact runSteps_zero _
  | succ n ih =>
    intro s t hcap hle h
    obtain ⟨u, hstep, hrun⟩ := exists_step_of_runSteps_succ h
    have hu := step_steps_le hstep
    rw [runSteps_succ n _ _ (step_withStepCap hcap (by omega) hstep)]
    exact ih u t ((congrArg Config.stepCap (step_config hstep)).trans hcap) (by omega) hrun

end Sys2Proof.Machine
end
